-- ==== Sys2Proof/Word.lean ====
section
/-! DEFINITION. The two value sizes of the core: the 8-bit cell and the 16-bit word (spec 00_scope.md R5, R7), and the
reductions `u8`, `u16` of the spec's notation. -/

namespace Sys2Proof

/-- One cell of memory, or the low half of a word: 8 bits, unsigned (R5, R7). -/
abbrev Byte := BitVec 8

/-- A register, a stack entry, an address, an instruction word: 16 bits, unsigned (R5, R7). -/
abbrev Word := BitVec 16

/-- `u16(e) = e mod 65536` on natural numbers (R7). -/
def u16 (e : Nat) : Word := BitVec.ofNat 16 e

/-- `u8(e) = e mod 256` on natural numbers (R7). -/
def u8 (e : Nat) : Byte := BitVec.ofNat 8 e

end Sys2Proof
end

