-- ==== Sys2Proof/Config.lean ====
section
/-! DEFINITION. The fixed parameters of the hardware (spec 00_scope.md R5), the places of the fixed words and regions of
memory (20_memory.md R62), the open parameter FRAME_TICK (R6, decision D8), and the free values the spec leaves undefined. -/

namespace Sys2Proof.Config

/-- The number of cells, and the length of an image (R5, R21, R230). -/
abbrev memorySize : Nat := 65536

/-- The saved `pc` (R26). -/
def savedPc : Word := 0x0000

/-- The saved `sp` (R26). -/
def savedSp : Word := 0x0002

/-- The saved `rp` (R26). -/
def savedRp : Word := 0x0004

/-- The frame counter word (R27). -/
def frameCounter : Word := 0x0006

/-- The first byte of the 256-entry palette, three bytes an entry (R62). -/
def paletteBase : Word := 0x0100

/-- The first byte of the 128 by 128 frame buffer, one byte a pixel (R62). -/
def frameBufferBase : Word := 0x0400

/-- The default of the budget `N`: what the frame loop gives each `Run` (R6, R110, decision D2). `N` itself is any natural
number. -/
def defaultBudget : Nat := 65536

/-- FRAME_TICK, the parameter R6 leaves OPEN (decision D8): whether the host increments the frame counter before or after
the `Run` of the same frame. No value is chosen; what depends on it takes it as an argument. -/
inductive FrameTick where
  | beforeRun
  | afterRun
  deriving DecidableEq, Repr

/-- FREE VALUE (log entry 4). What a cell holds after a fault: R203 and D18 leave it undefined. It may depend on the whole
state at the fault, and nothing can prove a value of it. -/
opaque cellAfterFault (mem : List Host.Cell) (pc sp rp : Word) (address : Nat) : Byte

/-- FREE VALUE (log entry 4). What `pc` holds after a fault (R203, D18). -/
opaque pcAfterFault (mem : List Host.Cell) (pc sp rp : Word) : Word

/-- FREE VALUE (log entry 4). What `sp` holds after a fault (R203, D18). -/
opaque spAfterFault (mem : List Host.Cell) (pc sp rp : Word) : Word

/-- FREE VALUE (log entry 4). What `rp` holds after a fault (R203, D18). -/
opaque rpAfterFault (mem : List Host.Cell) (pc sp rp : Word) : Word

end Sys2Proof.Config
end

