-- ==== Sys2Proof/Syntax.lean ====
section
/-! DEFINITION. The instruction set as syntax: the 32 primitives and the implicit call (spec 30_encoding.md R85; the eleven
`call` rows of opcode_table.json are one instruction cut by its highest set bit, R87), what the first word of an instruction
tells (R81, R83), why bytes fail to be an instruction, a row of the opcode table, and the statements of the spec's assembler
notation (R88, R89). -/

namespace Sys2Proof

/-- The instructions. Every operand but two is a word on a stack (R84), so only `pushLiteral` and `call` carry one. -/
inductive Instr where
  /-- `nop`, R120 -/
  | nop
  /-- `push-literal imm16`, R121 -/
  | pushLiteral (imm : Word)
  /-- `drop`, R122 -/
  | drop
  /-- `dup`, R123 -/
  | dup
  /-- `swap`, R124 -/
  | swap
  /-- `over`, R125 -/
  | overWord
  /-- `rot`, R126 -/
  | rot
  /-- `to-return`, R127 -/
  | toReturn
  /-- `from-return`, R128 -/
  | fromReturn
  /-- `load-byte`, R140 -/
  | loadByte
  /-- `load-word`, R141 -/
  | loadWord
  /-- `store-byte`, R142 -/
  | storeByte
  /-- `store-word`, R143 -/
  | storeWord
  /-- `jump`, R150 -/
  | jump
  /-- `jump-if-zero`, R151 -/
  | jumpIfZero
  /-- `jump-if-nonzero`, R152 -/
  | jumpIfNonzero
  /-- `add`, R171 -/
  | add
  /-- `sub`, R172 -/
  | sub
  /-- `mul`, R173 -/
  | mul
  /-- `div`, R174 -/
  | div
  /-- `mod`, R175 -/
  | mod
  /-- `and`, R176 -/
  | and
  /-- `or`, R177 -/
  | or
  /-- `xor`, R178 -/
  | xor
  /-- `not`, R179 -/
  | not
  /-- `shl`, R180 -/
  | shl
  /-- `shr`, R181 -/
  | shr
  /-- `eq`, R191 -/
  | eq
  /-- `lt`, R192 -/
  | lt
  /-- `le`, R193 -/
  | le
  /-- `call-indirect`, R153 -/
  | callIndirect
  /-- `return`, R154 -/
  | ret
  /-- the implicit call: the instruction word is the target, R155 -/
  | call (target : Word)
  deriving DecidableEq, Repr

/-- What the first word of an instruction says (R81, R83): it is the whole instruction, or it is 0x0001 and the literal
is the next word. -/
inductive FirstWord where
  | whole (i : Instr)
  | literalFollows
  deriving DecidableEq, Repr

/-- Why a list of bytes does not begin with an instruction. Every word is an instruction (R86), so the only reason is that
the bytes end too soon; memory, which wraps, never runs out. -/
inductive DecodeError where
  /-- fewer than two bytes: no instruction word -/
  | noOpcodeWord
  /-- 0x0001 with fewer than two bytes after it -/
  | noLiteralWord
  deriving DecidableEq, Repr

/-- A row of the opcode map: the words `w` with `w & mask = pattern` (R87). -/
structure OpcodeRow where
  mnemonic : String
  mask : Word
  pattern : Word
  deriving DecidableEq, Repr

/-- An operand of an assembler statement: a numeral or a label (R88). -/
inductive AsmOperand where
  | num (value : Nat)
  | label (name : String)
  deriving DecidableEq, Repr

/-- A statement of the assembler notation (R88) with the pseudo-instructions (R89). R88 does not say whether the address of
`.org` or the value of `.word` may be a label: the model takes a numeral for `.org` and either for `.word` (DESIGN CHOICE, log
entry 20). -/
inductive AsmStatement where
  /-- a mnemonic written alone: any instruction but `push-literal` and `call` -/
  | plain (i : Instr)
  /-- `push-literal v` -/
  | pushLiteral (v : AsmOperand)
  /-- `call target` -/
  | call (target : AsmOperand)
  /-- `push v`, the pseudo-instruction for `push-literal v` -/
  | push (v : AsmOperand)
  /-- a popping primitive written with an operand: `push-literal v`, then the primitive -/
  | withOperand (i : Instr) (v : AsmOperand)
  /-- `name:` -/
  | label (name : String)
  /-- `.org addr` -/
  | org (address : Nat)
  /-- `.word v` -/
  | word (v : AsmOperand)
  deriving DecidableEq, Repr

end Sys2Proof
end

