-- ==== Sys2Proof/WellFormed.lean ====
section
/-! DEFINITION. Which terms of the syntax are instructions and statements of the spec: the one constraint on an operand is
that an implicit call's target is at least 0x0020 (spec 30_encoding.md R81, format C); the assembler's own constraints are
those of R88 and R89. -/

namespace Sys2Proof

/-- An instruction the encoding can express: a `call` below 0x0020 has no word (R63, R81). -/
def Instr.wellFormed : Instr → Bool
  | .call target => decide (0x0020 ≤ target.toNat)
  | _ => true

/-- A primitive that pops at least one word of the data stack: those R89 lets be written with an operand. -/
def Instr.popsData : Instr → Bool
  | .nop | .pushLiteral _ | .fromReturn | .ret | .call _ => false
  | _ => true

/-- A numeral operand is 0 to 65535 (R88); a label's value is checked when it is looked up. -/
def AsmOperand.wellFormed : AsmOperand → Bool
  | .num value => decide (value < 65536)
  | .label _ => true

/-- The constraints of R88 and R89 on one statement. -/
def AsmStatement.wellFormed : AsmStatement → Bool
  | .plain (.pushLiteral _) => false
  | .plain (.call _) => false
  | .plain _ => true
  | .pushLiteral v => v.wellFormed
  | .call (.num value) => decide (0x0020 ≤ value) && decide (value < 65536)
  | .call (.label _) => true
  | .push v => v.wellFormed
  | .withOperand i v => i.popsData && v.wellFormed
  | .label _ => true
  | .org address => decide (address < 65536)
  | .word v => v.wellFormed

end Sys2Proof
end

