-- ==== Sys2Proof/Decode.lean ====
section
/-! DEFINITION. Byte order of words (spec 20_memory.md R58), the decoder (30_encoding.md R80 to R86), the encoder, the opcode
map as mask and pattern rows (R85, R87), and the assembler notation's expansion into words (R88, R89). -/

namespace Sys2Proof

/-- The more significant byte, `v[15:8]` (R55, R58). -/
def hiByte (v : Word) : Byte := BitVec.ofNat 8 (v.toNat / 256)

/-- The less significant byte, `v[7:0]` (R55, R58). -/
def loByte (v : Word) : Byte := BitVec.ofNat 8 v.toNat

/-- `{hi, lo} = hi * 256 + lo` (R7, R53). -/
def wordOfBytes (hi lo : Byte) : Word := BitVec.ofNat 16 (hi.toNat * 256 + lo.toNat)

/-- The opcode map (R85): what a step makes of the word it fetches first. The whole word is compared (R82); every word the
32 primitives leave over is an implicit call to itself. -/
def decodeFirst (w : Word) : FirstWord :=
  match w with
  | 0x0000#16 => .whole .nop
  | 0x0001#16 => .literalFollows
  | 0x0002#16 => .whole .drop
  | 0x0003#16 => .whole .dup
  | 0x0004#16 => .whole .swap
  | 0x0005#16 => .whole .overWord
  | 0x0006#16 => .whole .rot
  | 0x0007#16 => .whole .toReturn
  | 0x0008#16 => .whole .fromReturn
  | 0x0009#16 => .whole .loadByte
  | 0x000A#16 => .whole .loadWord
  | 0x000B#16 => .whole .storeByte
  | 0x000C#16 => .whole .storeWord
  | 0x000D#16 => .whole .jump
  | 0x000E#16 => .whole .jumpIfZero
  | 0x000F#16 => .whole .jumpIfNonzero
  | 0x0010#16 => .whole .add
  | 0x0011#16 => .whole .sub
  | 0x0012#16 => .whole .mul
  | 0x0013#16 => .whole .div
  | 0x0014#16 => .whole .mod
  | 0x0015#16 => .whole .and
  | 0x0016#16 => .whole .or
  | 0x0017#16 => .whole .xor
  | 0x0018#16 => .whole .not
  | 0x0019#16 => .whole .shl
  | 0x001A#16 => .whole .shr
  | 0x001B#16 => .whole .eq
  | 0x001C#16 => .whole .lt
  | 0x001D#16 => .whole .le
  | 0x001E#16 => .whole .callIndirect
  | 0x001F#16 => .whole .ret
  | w => .whole (.call w)

/-- The instruction that begins a list of bytes, and the bytes after it (R80, R81, R83). Total: every word is an instruction
(R86), so it rejects, by name, only bytes that end too soon. -/
def decode : List Byte → Except DecodeError (Instr × List Byte)
  | h :: l :: rest =>
    match decodeFirst (wordOfBytes h l) with
    | .whole i => .ok (i, rest)
    | .literalFollows =>
      match rest with
      | h2 :: l2 :: rest2 => .ok (.pushLiteral (wordOfBytes h2 l2), rest2)
      | _ => .error .noLiteralWord
  | _ => .error .noOpcodeWord

/-- The words of an instruction (R81, R85). -/
def encodeWords : Instr → List Word
  | .nop => [0x0000]
  | .pushLiteral imm => [0x0001, imm]
  | .drop => [0x0002]
  | .dup => [0x0003]
  | .swap => [0x0004]
  | .overWord => [0x0005]
  | .rot => [0x0006]
  | .toReturn => [0x0007]
  | .fromReturn => [0x0008]
  | .loadByte => [0x0009]
  | .loadWord => [0x000A]
  | .storeByte => [0x000B]
  | .storeWord => [0x000C]
  | .jump => [0x000D]
  | .jumpIfZero => [0x000E]
  | .jumpIfNonzero => [0x000F]
  | .add => [0x0010]
  | .sub => [0x0011]
  | .mul => [0x0012]
  | .div => [0x0013]
  | .mod => [0x0014]
  | .and => [0x0015]
  | .or => [0x0016]
  | .xor => [0x0017]
  | .not => [0x0018]
  | .shl => [0x0019]
  | .shr => [0x001A]
  | .eq => [0x001B]
  | .lt => [0x001C]
  | .le => [0x001D]
  | .callIndirect => [0x001E]
  | .ret => [0x001F]
  | .call target => [target]

/-- Words laid out as the hardware stores them: each with its more significant byte at the lower address (R58). -/
def bytesOfWords : List Word → List Byte
  | [] => []
  | w :: ws => hiByte w :: loByte w :: bytesOfWords ws

/-- The bytes of an instruction, from its lowest address. -/
def encode (i : Instr) : List Byte := bytesOfWords (encodeWords i)

/-- The length in bytes: 4 for `push-literal`, else 2 (R83). -/
def instrLength : Instr → Nat
  | .pushLiteral _ => 4
  | _ => 2

/-- The instruction the decoder reads from an instruction whose bits, numbered as spec/opcode_table.json numbers them (bit 0
the least significant of the first word, bit 16 that of the second), are the low `nbits` bits of `w`, all higher bits 0. -/
def decodeTableWord (nbits w : Nat) : Option Instr :=
  match decode (bytesOfWords [u16 (w % 2 ^ nbits), u16 (w % 2 ^ nbits / 65536)]) with
  | .ok (i, _) => some i
  | .error _ => none

/-- The spec's name of an instruction, letter for letter (R85). -/
def mnemonic : Instr → String
  | .nop => "nop"
  | .pushLiteral _ => "push-literal"
  | .drop => "drop"
  | .dup => "dup"
  | .swap => "swap"
  | .overWord => "over"
  | .rot => "rot"
  | .toReturn => "to-return"
  | .fromReturn => "from-return"
  | .loadByte => "load-byte"
  | .loadWord => "load-word"
  | .storeByte => "store-byte"
  | .storeWord => "store-word"
  | .jump => "jump"
  | .jumpIfZero => "jump-if-zero"
  | .jumpIfNonzero => "jump-if-nonzero"
  | .add => "add"
  | .sub => "sub"
  | .mul => "mul"
  | .div => "div"
  | .mod => "mod"
  | .and => "and"
  | .or => "or"
  | .xor => "xor"
  | .not => "not"
  | .shl => "shl"
  | .shr => "shr"
  | .eq => "eq"
  | .lt => "lt"
  | .le => "le"
  | .callIndirect => "call-indirect"
  | .ret => "return"
  | .call _ => "call"

/-- The instruction of a first word, whatever its literal is. -/
def firstWordInstr (imm : Word) : FirstWord → Instr
  | .whole i => i
  | .literalFollows => .pushLiteral imm

/-- The 32 primitive rows of the opcode map: mask 0xFFFF and the word itself (R85, R87). -/
def primitiveRows : List OpcodeRow :=
  [⟨"nop", 0xFFFF, 0x0000⟩, ⟨"push-literal", 0xFFFF, 0x0001⟩, ⟨"drop", 0xFFFF, 0x0002⟩, ⟨"dup", 0xFFFF, 0x0003⟩,
   ⟨"swap", 0xFFFF, 0x0004⟩, ⟨"over", 0xFFFF, 0x0005⟩, ⟨"rot", 0xFFFF, 0x0006⟩, ⟨"to-return", 0xFFFF, 0x0007⟩] ++
  [⟨"from-return", 0xFFFF, 0x0008⟩, ⟨"load-byte", 0xFFFF, 0x0009⟩, ⟨"load-word", 0xFFFF, 0x000A⟩,
   ⟨"store-byte", 0xFFFF, 0x000B⟩, ⟨"store-word", 0xFFFF, 0x000C⟩, ⟨"jump", 0xFFFF, 0x000D⟩,
   ⟨"jump-if-zero", 0xFFFF, 0x000E⟩, ⟨"jump-if-nonzero", 0xFFFF, 0x000F⟩] ++
  [⟨"add", 0xFFFF, 0x0010⟩, ⟨"sub", 0xFFFF, 0x0011⟩, ⟨"mul", 0xFFFF, 0x0012⟩, ⟨"div", 0xFFFF, 0x0013⟩,
   ⟨"mod", 0xFFFF, 0x0014⟩, ⟨"and", 0xFFFF, 0x0015⟩, ⟨"or", 0xFFFF, 0x0016⟩, ⟨"xor", 0xFFFF, 0x0017⟩] ++
  [⟨"not", 0xFFFF, 0x0018⟩, ⟨"shl", 0xFFFF, 0x0019⟩, ⟨"shr", 0xFFFF, 0x001A⟩, ⟨"eq", 0xFFFF, 0x001B⟩,
   ⟨"lt", 0xFFFF, 0x001C⟩, ⟨"le", 0xFFFF, 0x001D⟩, ⟨"call-indirect", 0xFFFF, 0x001E⟩, ⟨"return", 0xFFFF, 0x001F⟩]

/-- The eleven rows of the implicit call, one for each place of the highest set bit, 15 down to 5 (R87). -/
def callRows : List OpcodeRow :=
  [⟨"call", 0x8000, 0x8000⟩, ⟨"call", 0xC000, 0x4000⟩, ⟨"call", 0xE000, 0x2000⟩, ⟨"call", 0xF000, 0x1000⟩,
   ⟨"call", 0xF800, 0x0800⟩, ⟨"call", 0xFC00, 0x0400⟩] ++
  [⟨"call", 0xFE00, 0x0200⟩, ⟨"call", 0xFF00, 0x0100⟩, ⟨"call", 0xFF80, 0x0080⟩, ⟨"call", 0xFFC0, 0x0040⟩,
   ⟨"call", 0xFFE0, 0x0020⟩]

/-- The 43 rows of the opcode map (R85, R87). -/
def opcodeRows : List OpcodeRow := primitiveRows ++ callRows

/-- A word belongs to a row when `w & mask = pattern` (R87). -/
def rowMatches (w : Word) (row : OpcodeRow) : Bool := w &&& row.mask == row.pattern

/-- The address of a label; of one defined twice, on which R88 is silent, the first (log entry 12). -/
def labelAddress (labels : List (String × Nat)) (name : String) : Option Nat :=
  match labels with
  | [] => none
  | (n, a) :: rest => if n = name then some a else labelAddress rest name

/-- The value of an operand, which must be 0 to 65535 (R88). -/
def operandValue (labels : List (String × Nat)) : AsmOperand → Option Word
  | .num value => if value < 65536 then some (u16 value) else none
  | .label name => (labelAddress labels name).map u16

/-- The instructions a statement stands for (R88, R89): `push v` is `push-literal v`; a popping primitive with an operand is
`push-literal v` and then the primitive. Statements that emit no instruction stand for none. -/
def expandStatement (labels : List (String × Nat)) : AsmStatement → Option (List Instr)
  | .plain i => some [i]
  | .pushLiteral v => (operandValue labels v).map fun w => [.pushLiteral w]
  | .push v => (operandValue labels v).map fun w => [.pushLiteral w]
  | .call t => (operandValue labels t).bind fun w => if 0x0020 ≤ w.toNat then some [.call w] else none
  | .withOperand i v => (operandValue labels v).map fun w => [.pushLiteral w, i]
  | .label _ => some []
  | .org _ => some []
  | .word _ => some []

/-- The words a statement emits (R88). -/
def statementWords (labels : List (String × Nat)) : AsmStatement → Option (List Word)
  | .word v => (operandValue labels v).map fun w => [w]
  | st => (expandStatement labels st).map fun is => is.flatMap encodeWords

/-- How many bytes a statement emits, which does not depend on the value of a label. -/
def statementSize : AsmStatement → Nat
  | .plain i => instrLength i
  | .pushLiteral _ => 4
  | .push _ => 4
  | .call _ => 2
  | .withOperand i _ => 4 + instrLength i
  | .label _ => 0
  | .org _ => 0
  | .word _ => 2

/-- The address of the next word emitted after a statement: `.org` sets it (R88). Past 0xFFFF it goes on at 0x0000, on which R88
is silent (DESIGN CHOICE, log entry 21). -/
def nextAddress (address : Nat) : AsmStatement → Nat
  | .org a => a
  | st => (address + statementSize st) % 65536

/-- The labels of a program: a label is the address of the next word emitted (R88). For a label just before an `.org`, or with
no word after it, R88 leaves open which address that is: the model takes the running address, before the `.org` (DESIGN CHOICE,
log entry 21). -/
def collectLabels : Nat → List AsmStatement → List (String × Nat)
  | _, [] => []
  | address, .label name :: rest => (name, address) :: collectLabels address rest
  | address, st :: rest => collectLabels (nextAddress address st) rest

/-- Words laid out from an address, big-endian, at consecutive addresses (R88), modulo 65536 (log entry 21). -/
def layWords : Nat → List Word → List (Word × Word)
  | _, [] => []
  | address, w :: ws => (u16 address, w) :: layWords ((address + 2) % 65536) ws

/-- The words a program emits, each with its address, once its labels are known. -/
def emitFrom (labels : List (String × Nat)) : Nat → List AsmStatement → Option (List (Word × Word))
  | _, [] => some []
  | address, st :: rest =>
    match st.wellFormed, statementWords labels st, emitFrom labels (nextAddress address st) rest with
    | true, some ws, some out => some (layWords address ws ++ out)
    | _, _, _ => none

/-- The assembler of R88: the words of a program with their addresses. R88 gives no address to a first word that no `.org`
precedes: the model begins at 0x0000 (DESIGN CHOICE, log entry 19). `none` for a statement that is not well-formed, an
operand out of range, or a label that is not defined. -/
def assemble (program : List AsmStatement) : Option (List (Word × Word)) :=
  emitFrom (collectLabels 0 program) 0 program

end Sys2Proof
end

