-- ==== Sys2Proof/Machine/State.lean ====
section
/-! DEFINITION. The state of the core (spec 10_state.md R20), the reasons a step stops, the host's actions, and the state
after reset (R40, 70_reset_and_hazards.md R231). -/

namespace Sys2Proof.Machine

/-- The memory: the cells that differ from what an unlisted address reads as, by rising address (R21). -/
abbrev Memory := List Host.Cell

/-- The exceptions of the core (R200, R201). -/
inductive Fault where
  /-- DivideByZero, cause code 1. Raised by `div` and `mod` when the divisor, the top data-stack word, is 0 (R202). The spec
  itself makes it a fatal stop in place of a next state (R203, decision D3). Safe: no value follows from it. -/
  | divideByZero
  deriving DecidableEq, Repr

/-- Why a request is turned away. No instruction is ever refused. -/
inductive Refusal where
  /-- An instruction that has no meaning yet. No arm of the dispatch answers with it. Safe. -/
  | notModelled (mnemonic : String)
  /-- `Run` requested while the core is not Idle: before any image was loaded or after a fault, which R101 refuses (R204, R214,
  decision D11), or Running, which the precondition of R101 rules out. Raised by the host's `run` action. Safe. -/
  | runNotIdle
  /-- An image that is not exactly 65536 bytes: R214 and R230 have the loader reject it, and reset does not happen. Raised by
  the host's `loadImage` action. Safe. -/
  | imageLength
  /-- The host writes memory, by the frame tick or otherwise, while the core is Faulted or has no image yet: R100 lets the host
  act only while it is Idle, and R203 gives it no access to a faulted core's memory. Raised by the host's actions. Safe. -/
  | hostWriteNotIdle
  deriving DecidableEq, Repr

/-- The run status: the three values of R39, of which `faulted` holds what R203 records, the cause; and a fourth, the model's
own (log entry 11), before reset has happened. -/
inductive Status where
  /-- no image was ever loaded, so the core never starts (R214) and `Run` is refused (R101, decision D11); R39's Idle has an
  image loaded -/
  | unloaded
  | idle
  | running
  | faulted (cause : Fault)
  deriving DecidableEq, Repr

/-- What the host can do to the core (R100). Reading memory, which changes nothing, needs no action. -/
inductive HostAction where
  /-- `LoadImage(IMAGE)`, which is reset (R230), once no batch is executing -/
  | loadImage (image : List Byte)
  /-- `LoadImage(IMAGE)` in the midst of a batch, when `left` of its steps are still to run: R230 lets it be applied in any
  status (log entry 5). If no batch is executing it is the plain load. The documented host never does this (R66, R100). -/
  | loadImageDuring (left : Nat) (image : List Byte)
  /-- `Run(N)` (R101) -/
  | run (n : Nat)
  /-- one frame tick (R209) -/
  | frameTick
  /-- any other write of one cell between batches: the widening of HOST_BETWEEN that decision D9 allows (log entry 6); the
  documented host does none -/
  | write (address : Word) (value : Byte)
  deriving DecidableEq, Repr

/-- The state. The first five fields are the whole architectural state of the core (R20); the last two are the model's own. -/
structure State where
  /-- `mem`, 65536 cells (R21) -/
  mem : Memory
  /-- the live program counter (R22) -/
  pc : Word
  /-- the live data-stack pointer (R23) -/
  sp : Word
  /-- the live return-stack pointer (R24) -/
  rp : Word
  /-- the run status (R39) -/
  status : Status
  /-- the steps a batch still has to run: the bookkeeping of `Run` that R37 speaks of, which no program can see -/
  budget : Nat
  /-- what the host is going to do, the next action first; the core takes one whenever it is not Running, and while it is
  Running none but an image load due in the midst of the batch -/
  pending : List HostAction
  deriving DecidableEq, Repr

/-- After reset (R40, R231): the image loaded, status Idle, no batch. The image is that of log entry 1 (all cells 0, so none
is listed), and the live registers, which the spec gives no value, are those of log entry 2. -/
def State.reset : State :=
  { mem := [], pc := 0, sp := 0, rp := 0, status := .idle, budget := 0, pending := [] }

/-- Before reset: no image was ever loaded (R101, R214; log entry 11). Its memory and registers stand for nothing: nothing reads
them before an image load replaces them. -/
def State.beforeImage : State := { State.reset with status := .unloaded }

end Sys2Proof.Machine
end

