-- ==== Sys2Proof/Machine/Ops.lean ====
section
/-! DEFINITION. The operations every rule of the spec is built from: the four memory accesses (20_memory.md R52 to R55), push
and pop on both stacks (10_state.md R29 to R32), the fetch (40_run_and_step.md R104), the load and the write-back of a batch
(R102, R106), raising the one exception and what the core is after it (60_exceptions.md R201, R203), and reset
(70_reset_and_hazards.md R230). -/

namespace Sys2Proof.Machine

/-- What a cell reads as when no byte was ever written to it: the all-zero image of log entry 1 (DESIGN CHOICE). -/
def unlistedByte : Byte := 0

/-- The value of the cell with an address. -/
def readCell : Memory → Nat → Byte
  | [], _ => unlistedByte
  | (k, v) :: rest, a => if k = a then v else readCell rest a

/-- A memory with one cell set, in canonical form: addresses rising, no cell listed that holds the unlisted value. -/
def writeCell : Memory → Nat → Byte → Memory
  | [], a, v => if v = unlistedByte then [] else [(a, v)]
  | (k, x) :: rest, a, v =>
    if a < k then
      if v = unlistedByte then (k, x) :: rest else (a, v) :: (k, x) :: rest
    else if a = k then
      if v = unlistedByte then rest else (a, v) :: rest
    else (k, x) :: writeCell rest a v

/-- The cells are in rising order from `low` up, inside the address space, and none holds the unlisted value. -/
def cellsFrom (low : Nat) : Memory → Bool
  | [] => true
  | (k, v) :: rest => decide (low ≤ k) && decide (k < Config.memorySize) && decide (v ≠ unlistedByte) && cellsFrom (k + 1) rest

/-- The canonical form of a memory: equal contents are equal data. -/
def Memory.wf (m : Memory) : Bool := cellsFrom 0 m

/-- The memory of a list of bytes, the first at `address`. -/
def memoryOfBytes : Nat → List Byte → Memory
  | _, [] => []
  | address, v :: rest =>
    if v = unlistedByte then memoryOfBytes (address + 1) rest else (address, v) :: memoryOfBytes (address + 1) rest

/-- `MemRead(addr, 1)` (R52). -/
def readByte (m : Memory) (addr : Word) : Byte := readCell m addr.toNat

/-- `MemWrite(addr, 1, v)` (R54). -/
def writeByte (m : Memory) (addr : Word) (v : Byte) : Memory := writeCell m addr.toNat v

/-- `MemRead(addr, 2)`: big-endian, `addr + 1` taken modulo 65536, no alignment (R53, R59). -/
def readWord (m : Memory) (addr : Word) : Word := wordOfBytes (readByte m addr) (readByte m (addr + 1))

/-- `MemWrite(addr, 2, v)`: the high byte at `addr`, the low byte at `addr + 1` (R55). -/
def writeWord (m : Memory) (addr v : Word) : Memory := writeByte (writeByte m addr (hiByte v)) (addr + 1) (loByte v)

/-- `PushD(v)`: write, then decrement (R29). -/
def pushD (v : Word) (s : State) : State := { s with mem := writeWord s.mem s.sp v, sp := s.sp - 2 }

/-- `PopD()`: increment, then read (R30). -/
def popD (s : State) : Word × State := (readWord s.mem (s.sp + 2), { s with sp := s.sp + 2 })

/-- `PushR(v)` (R31). -/
def pushR (v : Word) (s : State) : State := { s with mem := writeWord s.mem s.rp v, rp := s.rp - 2 }

/-- `PopR()` (R32). -/
def popR (s : State) : Word × State := (readWord s.mem (s.rp + 2), { s with rp := s.rp + 2 })

/-- `pc <- target`, any target (R8, R22). -/
def setPc (target : Word) (s : State) : State := { s with pc := target }

/-- `Fetch()`: the word at `pc`, and `pc` advanced by 2 (R104). -/
def fetch (s : State) : Word × State := (readWord s.mem s.pc, { s with pc := s.pc + 2 })

/-- The fetches of one step: the opcode word, and for `push-literal` the literal (R103, R121). The answer is the instruction
and the state in which it executes, `pc` past all its words. -/
def fetchInstr (s : State) : Instr × State :=
  let (w, s) := fetch s
  match decodeFirst w with
  | .whole i => (i, s)
  | .literalFollows =>
    let (imm, s) := fetch s
    (.pushLiteral imm, s)

/-- The cause code of a fault (R201); code 0 is no fault. -/
def causeCode : Fault → Nat
  | .divideByZero => 1

/-- `raise`: the step answers a fault in place of a next state (R203). Taking the exception is this and `faultedState`. -/
def raiseFault (cause : Fault) : Host.Outcome State Fault Refusal := .fault cause

/-- The memory after a fault: every cell a free value (R203, D18; log entry 4). -/
@[irreducible] def memoryAfterFault (s : State) : Memory :=
  memoryOfBytes 0 ((List.range Config.memorySize).map (Config.cellAfterFault s.mem s.pc s.sp s.rp))

/-- The core after a fault (R203): status Faulted with the cause, the batch ended, no write-back, and memory and registers
undefined, each a free value (log entry 4). What the host had still to do is the host's own. -/
def faultedState (cause : Fault) (s : State) : State :=
  { mem := memoryAfterFault s
    pc := Config.pcAfterFault s.mem s.pc s.sp s.rp
    sp := Config.spAfterFault s.mem s.pc s.sp s.rp
    rp := Config.rpAfterFault s.mem s.pc s.sp s.rp
    status := .faulted cause
    budget := 0
    pending := s.pending }

/-- The load that starts a batch: the live registers from the save area (R102). -/
def loadRegisters (s : State) : State :=
  { s with
    pc := readWord s.mem Config.savedPc
    sp := readWord s.mem Config.savedSp
    rp := readWord s.mem Config.savedRp }

/-- The start of `Run(n)`: status Running, the registers loaded, `n` steps to run (R101, R102). -/
def startBatch (n : Nat) (s : State) : State := { loadRegisters s with status := .running, budget := n }

/-- The write-back that ends a batch: the live registers into the save area, status Idle (R101, R106). -/
def writeBack (s : State) : State :=
  { s with
    mem := writeWord (writeWord (writeWord s.mem Config.savedPc s.pc) Config.savedSp s.sp) Config.savedRp s.rp
    status := .idle }

/-- `LoadImage(IMAGE)`, which is reset: every cell from the image, status Idle, whatever the status was (R230). All else is as
in `State.reset`; what the host had still to do is the host's own. -/
def loadImage (image : List Byte) (s : State) : State :=
  { State.reset with mem := memoryOfBytes 0 image, pending := s.pending }

/-- One frame tick: the frame counter incremented, modulo 65536 (R209). -/
def tickFrame (s : State) : State :=
  { s with mem := writeWord s.mem Config.frameCounter (readWord s.mem Config.frameCounter + 1) }

/-- Whether a host action is an image load in the midst of a batch (log entry 5). -/
def isLoadDuring : HostAction → Bool
  | .loadImageDuring _ _ => true
  | _ => false

/-- Two instruction words placed where the next step fetches, and the core Running with a step left to run it and no
image load about to take its place: what `State.withFetchWord` needs (log entry 3). -/
def placeFetchWords (first second : Word) (s : State) : State :=
  { s with
    mem := writeWord (writeWord s.mem (s.pc + 2) second) s.pc first
    status := .running
    budget := max s.budget 1
    pending := s.pending.dropWhile isLoadDuring }

end Sys2Proof.Machine
end

