-- ==== Sys2Proof/Machine/Flags.lean ====
section
/-! DEFINITION. The boolean convention (spec 45_compare.md R190). The hardware has no flags register (10_state.md R36): a flag
is a data-stack word. -/

namespace Sys2Proof.Machine

/-- false = 0x0000, true = 0xFFFF (R190): what `eq`, `lt` and `le` produce. -/
def flagWord (b : Bool) : Word := if b then 0xFFFF else 0x0000

/-- A flag as consumed: every word but 0x0000 is true (R190, R151, R152). -/
def flagIsTrue (flag : Word) : Bool := decide (flag ≠ 0x0000)

end Sys2Proof.Machine
end

