-- ==== Sys2Proof/Machine/Operands.lean ====
section
/-! DEFINITION. The operand forms: every operand is a word popped from a stack (spec 30_encoding.md R84), in the frames the
rules share: one operand (44_arith_logic.md R179), two operands (R170), an address with a value below it (42_memory_access.md),
a flag with an address above it (43_control.md R151, R152). -/

namespace Sys2Proof.Machine

/-- `a <- PopD(); PushD(f(a))`: the frame of `not`, `load-byte` and `load-word` (R179, R140, R141). -/
def unaryOp (f : Word → Word) (s : State) : State :=
  let (a, s) := popD s
  pushD (f a) s

/-- `b <- PopD(); a <- PopD(); PushD(f(a, b))`: the frame of every two-operand instruction, `b` the top word (R170). -/
def binaryOp (f : Word → Word → Word) (s : State) : State :=
  let (b, s) := popD s
  let (a, s) := popD s
  pushD (f a b) s

/-- The frame of `div` and `mod`: both operands popped, DivideByZero raised when the divisor is zero, before any write (R174,
R175, R206). -/
def divideOp (f : Word → Word → Word) (s : State) : Host.Outcome State Fault Refusal :=
  let (b, s) := popD s
  let (a, s) := popD s
  if b = 0x0000 then raiseFault .divideByZero else .next (pushD (f a b) s)

/-- The two operands of a store: the address on top, the value below it (R142, R143). -/
def popAddrValue (s : State) : Word × Word × State :=
  let (addr, s) := popD s
  let (value, s) := popD s
  (addr, value, s)

/-- `addr <- PopD(); flag <- PopD()`, then a jump if the flag's truth is `taken`: both words are popped in either case (R151,
R152). -/
def jumpWhen (taken : Bool) (s : State) : State :=
  let (addr, s) := popD s
  let (flag, s) := popD s
  if flagIsTrue flag = taken then setPc addr s else s

end Sys2Proof.Machine
end

