-- ==== Sys2Proof/Machine/Arith.lean ====
section
/-! DEFINITION. Arithmetic, logic and shift instructions (spec 44_arith_logic.md). `a` is the word below the top, the left
operand; `b` is the top word, the right operand (R170). All values are unsigned (R182). -/

namespace Sys2Proof.Machine

/-- `u16(a * 2^b)`: the whole 16-bit `b` is the count, zeros enter at bit 0 (R180, decision D5). -/
def shiftLeft (a b : Word) : Word := a <<< b.toNat

/-- `a div 2^b`: the whole 16-bit `b` is the count, zeros enter at bit 15 (R181, decision D5). -/
def shiftRight (a b : Word) : Word := a >>> b.toNat

/-- `add`: a + b modulo 65536 (R171). -/
def execAdd (s : State) : Host.Outcome State Fault Refusal := .next (binaryOp (fun a b => a + b) s)

/-- `sub`: a - b modulo 65536 (R172). -/
def execSub (s : State) : Host.Outcome State Fault Refusal := .next (binaryOp (fun a b => a - b) s)

/-- `mul`: the low 16 bits of a * b (R173). -/
def execMul (s : State) : Host.Outcome State Fault Refusal := .next (binaryOp (fun a b => a * b) s)

/-- `div`: the unsigned quotient; DivideByZero when b = 0 (R174). -/
def execDiv (s : State) : Host.Outcome State Fault Refusal := divideOp (fun a b => BitVec.udiv a b) s

/-- `mod`: the unsigned remainder; DivideByZero when b = 0 (R175). -/
def execMod (s : State) : Host.Outcome State Fault Refusal := divideOp (fun a b => BitVec.umod a b) s

/-- `and`: bitwise (R176). -/
def execAnd (s : State) : Host.Outcome State Fault Refusal := .next (binaryOp (fun a b => a &&& b) s)

/-- `or`: bitwise (R177). -/
def execOr (s : State) : Host.Outcome State Fault Refusal := .next (binaryOp (fun a b => a ||| b) s)

/-- `xor`: bitwise (R178). -/
def execXor (s : State) : Host.Outcome State Fault Refusal := .next (binaryOp (fun a b => a ^^^ b) s)

/-- `not`: the complement of all 16 bits (R179). -/
def execNot (s : State) : Host.Outcome State Fault Refusal := .next (unaryOp (fun a => ~~~a) s)

/-- `shl`: a shifted left by b (R180). -/
def execShl (s : State) : Host.Outcome State Fault Refusal := .next (binaryOp shiftLeft s)

/-- `shr`: a shifted right by b, logically (R181). -/
def execShr (s : State) : Host.Outcome State Fault Refusal := .next (binaryOp shiftRight s)

end Sys2Proof.Machine
end

