-- ==== Sys2Proof/Machine/Compare.lean ====
section
/-! DEFINITION. Comparison instructions (spec 45_compare.md): unsigned, `a` the word below the top against `b` the top word,
in the frame of R170. -/

namespace Sys2Proof.Machine

/-- `eq`: 0xFFFF if a = b, else 0x0000 (R191). -/
def execEq (s : State) : Host.Outcome State Fault Refusal := .next (binaryOp (fun a b => flagWord (decide (a = b))) s)

/-- `lt`: 0xFFFF if a is less than b as unsigned numbers, else 0x0000 (R192). -/
def execLt (s : State) : Host.Outcome State Fault Refusal := .next (binaryOp (fun a b => flagWord (BitVec.ult a b)) s)

/-- `le`: 0xFFFF if a is at most b as unsigned numbers, else 0x0000 (R193). -/
def execLe (s : State) : Host.Outcome State Fault Refusal := .next (binaryOp (fun a b => flagWord (BitVec.ule a b)) s)

end Sys2Proof.Machine
end

