-- ==== Sys2Proof/Machine/Control.lean ====
section
/-! DEFINITION. Control transfer (spec 43_control.md). In the execute phase `pc` is the address after the instruction word, so
it is the return address the calls push (R156). No target is checked. -/

namespace Sys2Proof.Machine

/-- `jump`: pop addr, set pc (R150). -/
def execJump (s : State) : Host.Outcome State Fault Refusal :=
  let (addr, s) := popD s
  .next (setPc addr s)

/-- `jump-if-zero`: pop addr, pop flag; jump if flag = 0 (R151). -/
def execJumpIfZero (s : State) : Host.Outcome State Fault Refusal := .next (jumpWhen false s)

/-- `jump-if-nonzero`: pop addr, pop flag; jump if flag is not 0 (R152). -/
def execJumpIfNonzero (s : State) : Host.Outcome State Fault Refusal := .next (jumpWhen true s)

/-- `call-indirect`: push pc onto the return stack, and only then pop addr from the data stack; set pc (R153). -/
def execCallIndirect (s : State) : Host.Outcome State Fault Refusal :=
  let (addr, s) := popD (pushR s.pc s)
  .next (setPc addr s)

/-- `return`: pop addr from the return stack, set pc (R154). -/
def execRet (s : State) : Host.Outcome State Fault Refusal :=
  let (addr, s) := popR s
  .next (setPc addr s)

/-- `call`, the implicit call: push pc onto the return stack, set pc to the instruction word (R155). -/
def execCall (target : Word) (s : State) : Host.Outcome State Fault Refusal := .next (setPc target (pushR s.pc s))

end Sys2Proof.Machine
end

