-- ==== Sys2Proof/Machine/MemoryAccess.lean ====
section
/-! DEFINITION. Load and store instructions (spec 42_memory_access.md). The address is a word popped from the data stack, used
as it is. -/

namespace Sys2Proof.Machine

/-- `load-byte`: pop addr, push the zero-extended byte at addr (R140). -/
def execLoadByte (s : State) : Host.Outcome State Fault Refusal :=
  .next (unaryOp (fun addr => u16 (readByte s.mem addr).toNat) s)

/-- `load-word`: pop addr, push the word at addr (R141). -/
def execLoadWord (s : State) : Host.Outcome State Fault Refusal := .next (unaryOp (readWord s.mem) s)

/-- `store-byte`: pop addr, pop value, store the low 8 bits of value at addr (R142). -/
def execStoreByte (s : State) : Host.Outcome State Fault Refusal :=
  let (addr, value, s) := popAddrValue s
  .next { s with mem := writeByte s.mem addr (loByte value) }

/-- `store-word`: pop addr, pop value, store the word at addr (R143). -/
def execStoreWord (s : State) : Host.Outcome State Fault Refusal :=
  let (addr, value, s) := popAddrValue s
  .next { s with mem := writeWord s.mem addr value }

end Sys2Proof.Machine
end

