-- ==== Sys2Proof/Machine/Stack.lean ====
section
/-! DEFINITION. No-operation, literal and stack instructions (spec 41_stack.md). Each meaning is the execute phase of a step:
it starts after the fetches, `pc` past the instruction, and is the rule's sequence of pops and pushes in its order. -/

namespace Sys2Proof.Machine

/-- `nop`: nothing (R120). -/
def execNop (s : State) : Host.Outcome State Fault Refusal := .next s

/-- `push-literal`: `PushD(imm)` (R121). -/
def execPushLiteral (imm : Word) (s : State) : Host.Outcome State Fault Refusal := .next (pushD imm s)

/-- `drop`: pop and discard (R122). -/
def execDrop (s : State) : Host.Outcome State Fault Refusal := .next (popD s).2

/-- `dup`: pop a, push a, push a (R123). -/
def execDup (s : State) : Host.Outcome State Fault Refusal :=
  let (a, s) := popD s
  .next (pushD a (pushD a s))

/-- `swap`: pop b, pop a, push b, push a (R124). -/
def execSwap (s : State) : Host.Outcome State Fault Refusal :=
  let (b, s) := popD s
  let (a, s) := popD s
  .next (pushD a (pushD b s))

/-- `over`: pop b, pop a, push a, push b, push a (R125). -/
def execOver (s : State) : Host.Outcome State Fault Refusal :=
  let (b, s) := popD s
  let (a, s) := popD s
  .next (pushD a (pushD b (pushD a s)))

/-- `rot`: pop c, pop b, pop a, push b, push c, push a (R126). -/
def execRot (s : State) : Host.Outcome State Fault Refusal :=
  let (c, s) := popD s
  let (b, s) := popD s
  let (a, s) := popD s
  .next (pushD a (pushD c (pushD b s)))

/-- `to-return`: pop from the data stack, push onto the return stack (R127). -/
def execToReturn (s : State) : Host.Outcome State Fault Refusal :=
  let (a, s) := popD s
  .next (pushR a s)

/-- `from-return`: pop from the return stack, push onto the data stack (R128). -/
def execFromReturn (s : State) : Host.Outcome State Fault Refusal :=
  let (a, s) := popR s
  .next (pushD a s)

end Sys2Proof.Machine
end

