-- ==== Sys2Proof/Machine/Dispatch.lean ====
section
/-! DEFINITION. The execute phase of a step: one arm per instruction, each one call of its meaning. It runs after the fetches,
with `pc` past the instruction's words (spec 40_run_and_step.md R103). -/

namespace Sys2Proof.Machine

def exec (i : Instr) (s : State) : Host.Outcome State Fault Refusal :=
  match i with
  | .nop => Sys2Proof.Machine.execNop s
  | .pushLiteral imm => Sys2Proof.Machine.execPushLiteral imm s
  | .drop => Sys2Proof.Machine.execDrop s
  | .dup => Sys2Proof.Machine.execDup s
  | .swap => Sys2Proof.Machine.execSwap s
  | .overWord => Sys2Proof.Machine.execOver s
  | .rot => Sys2Proof.Machine.execRot s
  | .toReturn => Sys2Proof.Machine.execToReturn s
  | .fromReturn => Sys2Proof.Machine.execFromReturn s
  | .loadByte => Sys2Proof.Machine.execLoadByte s
  | .loadWord => Sys2Proof.Machine.execLoadWord s
  | .storeByte => Sys2Proof.Machine.execStoreByte s
  | .storeWord => Sys2Proof.Machine.execStoreWord s
  | .jump => Sys2Proof.Machine.execJump s
  | .jumpIfZero => Sys2Proof.Machine.execJumpIfZero s
  | .jumpIfNonzero => Sys2Proof.Machine.execJumpIfNonzero s
  | .add => Sys2Proof.Machine.execAdd s
  | .sub => Sys2Proof.Machine.execSub s
  | .mul => Sys2Proof.Machine.execMul s
  | .div => Sys2Proof.Machine.execDiv s
  | .mod => Sys2Proof.Machine.execMod s
  | .and => Sys2Proof.Machine.execAnd s
  | .or => Sys2Proof.Machine.execOr s
  | .xor => Sys2Proof.Machine.execXor s
  | .not => Sys2Proof.Machine.execNot s
  | .shl => Sys2Proof.Machine.execShl s
  | .shr => Sys2Proof.Machine.execShr s
  | .eq => Sys2Proof.Machine.execEq s
  | .lt => Sys2Proof.Machine.execLt s
  | .le => Sys2Proof.Machine.execLe s
  | .callIndirect => Sys2Proof.Machine.execCallIndirect s
  | .ret => Sys2Proof.Machine.execRet s
  | .call target => Sys2Proof.Machine.execCall target s

end Sys2Proof.Machine
end

