-- ==== Sys2Proof/Machine/HostActions.lean ====
section
/-! DEFINITION. The host's side of the core (spec 40_run_and_step.md R100): its actions while the core is not Running, the
image load in the midst of a batch (70_reset_and_hazards.md R230), the actions of one frame (R110, 60_exceptions.md R209), and what the renderer reads (R210, 20_memory.md R62). -/

namespace Sys2Proof.Machine

/-- The host's `LoadImage`: reset, or refused by the loader if the image is not exactly 65536 bytes (R214, R230). -/
def hostLoad (image : List Byte) (s : State) : Host.Outcome State Fault Refusal :=
  if image.length = Config.memorySize then .next (loadImage image s) else .refused .imageLength

/-- A host action before any image was loaded: only a load, since the core never starts without one (R214, R101, D11). -/
def hostActionUnloaded (act : HostAction) (s : State) : Host.Outcome State Fault Refusal :=
  match act with
  | .loadImage image => hostLoad image s
  | .loadImageDuring _ image => hostLoad image s
  | .run _ => .refused .runNotIdle
  | .frameTick => .refused .hostWriteNotIdle
  | .write _ _ => .refused .hostWriteNotIdle

/-- A host action on an Idle core (R100, R101, R209, R230). -/
def hostActionIdle (act : HostAction) (s : State) : Host.Outcome State Fault Refusal :=
  match act with
  | .loadImage image => hostLoad image s
  | .loadImageDuring _ image => hostLoad image s
  | .run n => .next (startBatch n s)
  | .frameTick => .next (tickFrame s)
  | .write address value => .next { s with mem := writeByte s.mem address value }

/-- A host action on a Faulted core: a new image is the only way out (R204, R230); the rest is refused (R101, R100). -/
def hostActionFaulted (act : HostAction) (s : State) : Host.Outcome State Fault Refusal :=
  match act with
  | .loadImage image => hostLoad image s
  | .loadImageDuring _ image => hostLoad image s
  | .run _ => .refused .runNotIdle
  | .frameTick => .refused .hostWriteNotIdle
  | .write _ _ => .refused .hostWriteNotIdle

/-- The host's next action. With none to come the core stays as it is: it starts nothing by itself (R66, R109). -/
def hostStep (action : HostAction → State → Host.Outcome State Fault Refusal) (s : State) : Host.Outcome State Fault Refusal :=
  match s.pending with
  | [] => .next s
  | act :: rest => action act { s with pending := rest }

/-- The image that a load action loads. -/
def loadedImage : HostAction → Option (List Byte)
  | .loadImage image => some image
  | .loadImageDuring _ image => some image
  | _ => none

/-- The image load that is due in a batch at this point of it, and the actions after it: R230 lets reset be applied while the
core is Running too (log entry 5). Everything else waits (R66). -/
def dueLoad (s : State) : Option (List Byte × List HostAction) :=
  match s.pending with
  | .loadImageDuring left image :: rest => if left = s.budget then some (image, rest) else none
  | _ => none

/-- The host's actions for one frame with budget `n`, by default 65536 (R6, D2): one tick and one `Run`, the tick before or
after (R110, R209). -/
def frameActions (order : Config.FrameTick) (n : Nat := Config.defaultBudget) : List HostAction :=
  match order with
  | .beforeRun => [.frameTick, .run n]
  | .afterRun => [.run n, .frameTick]

/-- An action of the documented host, which writes nothing between batches but the tick (R100, R236, decision D9) and does
nothing during one (R66). -/
def documentedAction : HostAction → Bool
  | .loadImageDuring _ _ => false
  | .write _ _ => false
  | _ => true

/-- Palette entry `i` as the renderer reads it: red, green, blue (R62, R210). -/
def paletteEntry (m : Memory) (i : Byte) : Byte × Byte × Byte :=
  let at_ := Config.paletteBase + u16 (3 * i.toNat)
  (readByte m at_, readByte m (at_ + 1), readByte m (at_ + 2))

/-- The address of pixel (x, y): `0x0400 + 128*y + x` (R62). -/
def pixelAddress (x y : Nat) : Word := Config.frameBufferBase + u16 (128 * y + x)

/-- The palette index of pixel (x, y) as the renderer reads it (R62, R210). -/
def pixel (m : Memory) (x y : Nat) : Byte := readByte m (pixelAddress x y)

/-- The colour the renderer shows at (x, y) (R210). -/
def pixelColour (m : Memory) (x y : Nat) : Byte × Byte × Byte := paletteEntry m (pixel m x y)

end Sys2Proof.Machine
end

