-- ==== Sys2Proof/Machine/Step.lean ====
section
/-! DEFINITION. One step of the machine. While Running it is one fetch-decode-execute of the spec (40_run_and_step.md R103), or,
when the batch has run all its steps, the write-back (R106), or an image load in the midst of the batch (R230, log entry 5);
otherwise it is the host's next action (R100). -/

namespace Sys2Proof.Machine

/-- `Step()`: one instruction (R103). It says nothing of the budget. -/
def instrStep (s : State) : Host.Outcome State Fault Refusal := exec (fetchInstr s).1 (fetchInstr s).2

/-- One step of a batch: the next instruction, which uses one unit of the budget whatever it is (R105), or, with none left, the
write-back (R106). -/
def batchStep (s : State) : Host.Outcome State Fault Refusal :=
  match s.budget with
  | 0 => .next (writeBack s)
  | k + 1 => instrStep { s with budget := k }

/-- One step of the machine. -/
def step (s : State) : Host.Outcome State Fault Refusal :=
  match s.status with
  | .running =>
    match dueLoad s with
    | some (image, rest) => hostLoad image { s with pending := rest }
    | none => batchStep s
  | .unloaded => hostStep hostActionUnloaded s
  | .idle => hostStep hostActionIdle s
  | .faulted _ => hostStep hostActionFaulted s

/-- The state with an instruction, numbered as spec/opcode_table.json numbers its bits, stored where the next step fetches,
and the core Running with a step left (log entry 3). -/
def State.withFetchWord (s : State) (nbits w : Nat) : State :=
  placeFetchWords (u16 (w % 2 ^ nbits)) (u16 (w % 2 ^ nbits / 65536)) s

end Sys2Proof.Machine
end

