-- ==== Sys2Proof/Machine/Batch.lean ====
section
/-! DEFINITION. The whole operations of the spec over the single step: `Run(N)` as one operation (40_run_and_step.md R101), and
where the machine stands after a step that stopped (60_exceptions.md R203, R204). -/

namespace Sys2Proof.Machine

/-- `repeat n times: Step()` (R101): the loop stops at the first step that is not a next state. -/
def repeatStep : Nat → State → Host.Outcome State Fault Refusal
  | 0, s => .next s
  | n + 1, s =>
    match instrStep s with
    | .next t => repeatStep n t
    | .fault f => .fault f
    | .refused r => .refused r

/-- `Run(n)` as one operation (R101): load, `n` steps, write-back; refused unless the core is Idle; a fault ends it with no
write-back. -/
def runBatch (n : Nat) (s : State) : Host.Outcome State Fault Refusal :=
  match s.status with
  | .idle =>
    match repeatStep n { loadRegisters s with status := .running } with
    | .next t => .next (writeBack t)
    | .fault f => .fault f
    | .refused r => .refused r
  | _ => .refused .runNotIdle

/-- One frame of the documented host: one tick and one `Run(n)`, in the order FRAME_TICK says (R110, R209). -/
def runFrame (order : Config.FrameTick) (n : Nat) (s : State) : Host.Outcome State Fault Refusal :=
  match order with
  | .beforeRun => runBatch n (tickFrame s)
  | .afterRun =>
    match runBatch n s with
    | .next t => .next (tickFrame t)
    | .fault f => .fault f
    | .refused r => .refused r

/-- One frame of the documented host with the default budget (R6, R110, decision D2). -/
def runDefaultFrame (order : Config.FrameTick) (s : State) : Host.Outcome State Fault Refusal :=
  runFrame order Config.defaultBudget s

/-- Where the machine stands after a step: in the next state; Faulted after a fault (R203); and after a refusal where it was,
the refused request dropped, since nothing else changes (R101, decision D11). -/
def proceed (s : State) : State :=
  match step s with
  | .next t => t
  | .fault f => faultedState f s
  | .refused _ => { s with pending := s.pending.tail }

/-- The machine after `k` steps, through faults and refusals. -/
def proceedN : Nat → State → State
  | 0, s => s
  | k + 1, s => proceedN k (proceed s)

end Sys2Proof.Machine
end

