-- ==== Sys2Proof/Safety.lean ====
section
/-! DEFINITION. The terms the statements are made in: the invariant of the machine, when an instruction is about to run, which
cells an instruction stores to and which it touches, what it does to the two pointers and to `pc`, and runs of pushes and pops.
Each is read from the spec's rules, not from the meanings. -/

namespace Sys2Proof.Machine

/-- The invariant of every state the machine can be in: the memory is in canonical form (so it holds no cell beyond the 65536,
R21), and steps are left to run only in a batch (R37, R39). -/
abbrev State.Inv (s : State) : Prop := s.mem.wf = true ∧ (s.status = .running ∨ s.budget = 0)

/-- The next step runs an instruction: a batch is executing and has a step left (R100, R101), and no image load takes the
step's place, as the documented host's never does (R66; log entry 5). -/
abbrev Ready (s : State) : Prop := s.status = .running ∧ 0 < s.budget ∧ dueLoad s = none

/-- The four bytes from `pc`, as far as an instruction can reach (R80, R81). -/
def fetchedBytes (s : State) : List Byte :=
  [readByte s.mem s.pc, readByte s.mem (s.pc + 1), readByte s.mem (s.pc + 2), readByte s.mem (s.pc + 3)]

/-- What a step does before it executes an instruction of `length` bytes: `pc` past it (R104), one unit of the budget used
(R105). -/
def afterFetch (s : State) (length : Word) : State := { s with pc := s.pc + length, budget := s.budget - 1 }

/-- The two cells of the word at an address (R53). -/
def wordCells (a : Word) : List Word := [a, a + 1]

/-- `W[x]`, the word at an address above the data-stack pointer: `W[s+2]` is the top word (R28). -/
def dataWord (s : State) (offset : Word) : Word := readWord s.mem (s.sp + offset)

/-- The state in which the batch of a frame starts: with the tick done, or still to do (R209, FRAME_TICK). -/
def frameStart (order : Config.FrameTick) (s : State) : State :=
  match order with
  | .beforeRun => tickFrame s
  | .afterRun => s

/-- The cells whose contents the execute phase of an instruction may change, by the net effect of its rule. -/
def storedCells (i : Instr) (s : State) : List Word :=
  match i with
  | .nop | .drop | .jump | .jumpIfZero | .jumpIfNonzero | .ret => []
  | .pushLiteral _ | .dup | .overWord | .fromReturn => wordCells s.sp
  | .swap => wordCells (s.sp + 2) ++ wordCells (s.sp + 4)
  | .rot => wordCells (s.sp + 2) ++ wordCells (s.sp + 4) ++ wordCells (s.sp + 6)
  | .toReturn | .callIndirect | .call _ => wordCells s.rp
  | .loadByte | .loadWord | .not => wordCells (s.sp + 2)
  | .storeByte => [dataWord s 2]
  | .storeWord => wordCells (dataWord s 2)
  | .add | .sub | .mul | .div | .mod | .and | .or | .xor | .shl | .shr | .eq | .lt | .le => wordCells (s.sp + 4)

/-- The cells the execute phase of an instruction reads or writes, each pop and push of its rule counted (R60). -/
def touchedCells (i : Instr) (s : State) : List Word :=
  match i with
  | .nop => []
  | .pushLiteral _ => wordCells s.sp
  | .drop | .jump | .not => wordCells (s.sp + 2)
  | .dup => wordCells (s.sp + 2) ++ wordCells s.sp
  | .swap | .jumpIfZero | .jumpIfNonzero => wordCells (s.sp + 2) ++ wordCells (s.sp + 4)
  | .overWord => wordCells (s.sp + 2) ++ wordCells (s.sp + 4) ++ wordCells s.sp
  | .rot => wordCells (s.sp + 2) ++ wordCells (s.sp + 4) ++ wordCells (s.sp + 6)
  | .toReturn => wordCells (s.sp + 2) ++ wordCells s.rp
  | .fromReturn => wordCells (s.rp + 2) ++ wordCells s.sp
  | .loadByte => wordCells (s.sp + 2) ++ [dataWord s 2]
  | .loadWord => wordCells (s.sp + 2) ++ wordCells (dataWord s 2)
  | .storeByte => wordCells (s.sp + 2) ++ wordCells (s.sp + 4) ++ [dataWord s 2]
  | .storeWord => wordCells (s.sp + 2) ++ wordCells (s.sp + 4) ++ wordCells (dataWord s 2)
  | .callIndirect => wordCells (s.sp + 2) ++ wordCells s.rp
  | .call _ => wordCells s.rp
  | .ret => wordCells (s.rp + 2)
  | .add | .sub | .mul | .div | .mod | .and | .or | .xor | .shl | .shr | .eq | .lt | .le =>
    wordCells (s.sp + 2) ++ wordCells (s.sp + 4)

/-- The cells a whole step reads or writes: those it fetches (the literal's too, R104) and those it touches. -/
def stepCells (s : State) : List Word :=
  (match decodeFirst (readWord s.mem s.pc) with
    | .whole _ => wordCells s.pc
    | .literalFollows => wordCells s.pc ++ wordCells (s.pc + 2)) ++
  touchedCells (fetchInstr s).1 (fetchInstr s).2

/-- The words an instruction takes off and puts on the data stack, by the stack pictures of R85: `( before -- after )`. -/
def dataPicture : Instr → Nat × Nat
  | .nop => (0, 0)
  | .pushLiteral _ => (0, 1)
  | .drop => (1, 0)
  | .dup => (1, 2)
  | .swap => (2, 2)
  | .overWord => (2, 3)
  | .rot => (3, 3)
  | .toReturn => (1, 0)
  | .fromReturn => (0, 1)
  | .loadByte | .loadWord => (1, 1)
  | .storeByte | .storeWord => (2, 0)
  | .jump => (1, 0)
  | .jumpIfZero | .jumpIfNonzero => (2, 0)
  | .add | .sub | .mul | .div | .mod | .and | .or | .xor | .shl | .shr | .eq | .lt | .le => (2, 1)
  | .not => (1, 1)
  | .callIndirect => (1, 0)
  | .ret => (0, 0)
  | .call _ => (0, 0)

/-- The same for the return stack: `R:( before -- after )` (R85). -/
def returnPicture : Instr → Nat × Nat
  | .toReturn => (0, 1)
  | .fromReturn => (1, 0)
  | .callIndirect => (0, 1)
  | .ret => (1, 0)
  | .call _ => (0, 1)
  | _ => (0, 0)

/-- A stack pointer after `picture.1` pops and `picture.2` pushes: two up for each pop, two down for each push (R29, R30). -/
def pointerAfter (pointer : Word) (picture : Nat × Nat) : Word := pointer + u16 (2 * picture.1) - u16 (2 * picture.2)

/-- The `pc` after the execute phase, by the table of R22; in it `s.pc` is already past the instruction. -/
def pcAfter (i : Instr) (s : State) : Word :=
  match i with
  | .jump => dataWord s 2
  | .jumpIfZero => if dataWord s 4 = 0x0000 then dataWord s 2 else s.pc
  | .jumpIfNonzero => if dataWord s 4 = 0x0000 then s.pc else dataWord s 2
  | .callIndirect => readWord (writeWord s.mem s.rp s.pc) (s.sp + 2)
  | .ret => readWord s.mem (s.rp + 2)
  | .call target => target
  | _ => s.pc

/-- The one exceptional condition (R202): `div` or `mod` with a zero word on top of the data stack. -/
abbrev DividesByZero (i : Instr) (s : State) : Prop := (i = .div ∨ i = .mod) ∧ dataWord s 2 = 0x0000

/-- Pushes of a list of words, the first one first, on the data stack and on the return stack. -/
def pushAllD (vs : List Word) (s : State) : State := vs.foldl (fun s v => pushD v s) s
def pushAllR (vs : List Word) (s : State) : State := vs.foldl (fun s v => pushR v s) s

/-- `n` pops, with the words in the order they were popped. -/
def popManyD : Nat → State → List Word × State
  | 0, s => ([], s)
  | n + 1, s => ((popD s).1 :: (popManyD n (popD s).2).1, (popManyD n (popD s).2).2)
def popManyR : Nat → State → List Word × State
  | 0, s => ([], s)
  | n + 1, s => ((popR s).1 :: (popManyR n (popR s).2).1, (popManyR n (popR s).2).2)

/-- A run of `k` steps that stops for nothing: no fault and no refusal. -/
def runsFreely (k : Nat) (s : State) : Prop := ∃ t, Host.Core.run Sys2Proof.core k s = .next t

end Sys2Proof.Machine
end

