-- ==== Sys2Proof/Certificates/Slice0/Obligations.lean ====
section
/-! DEFINITION. The statements for the provers. Each is read from rules of the spec; where one rests on a choice of the model
its docstring names the log entry. In the execute phase of an instruction (`exec`) `pc` is already past its words. -/

open Sys2Proof Sys2Proof.Machine

/-! ### Memory -/

/-- R57: a word read back is the word written, at every address; at 0xFFFF the high byte goes to 0xFFFF and the low byte to 0;
and (the spec's own inference from R52 and R54) a byte read back is the byte written. -/
def Obligations.ReadAfterWriteGivesValueWritten : Prop :=
  ∀ (m : Memory) (x v : Word) (b : Byte), m.wf = true →
    readWord (writeWord m x v) x = v ∧
    readByte (writeWord m 0xFFFF v) 0xFFFF = hiByte v ∧
    readByte (writeWord m 0xFFFF v) 0x0000 = loByte v ∧
    readByte (writeByte m x b) x = b

/-- R53: the word at an address is its byte times 256 plus the next byte, the next address taken modulo 65536. -/
def Obligations.WordReadIsBigEndianAndWraps : Prop :=
  ∀ (m : Memory) (a : Word),
    (readWord m a).toNat = (readByte m a).toNat * 256 + (readByte m (u16 ((a.toNat + 1) % 65536))).toNat

/-- R54: a byte write changes the one cell named, to the byte; of a word only the low 8 bits go there. -/
def Obligations.ByteWriteChangesOneCell : Prop :=
  ∀ (m : Memory) (a x : Word) (b : Byte) (v : Word), m.wf = true →
    readByte (writeByte m a b) x = (if x = a then b else readByte m x) ∧ (loByte v).toNat = v.toNat % 256

/-- R55: a word write puts `v[15:8]` at the address and `v[7:0]` at the next one, modulo 65536; no other cell changes; and
(the spec's own inference from R51) the two byte writes may be done in either order. -/
def Obligations.WordWriteChangesTwoCells : Prop :=
  ∀ (m : Memory) (a x v : Word), m.wf = true →
    readByte (writeWord m a v) x =
      (if x = a then u8 (v.toNat / 256) else if x = u16 ((a.toNat + 1) % 65536) then u8 (v.toNat % 256) else readByte m x) ∧
    writeWord m a v = writeByte (writeByte m (a + 1) (loByte v)) a (hiByte v)

/-- Every write keeps the canonical form, and canonical memories with the same bytes are equal: so a state holds the contents
of the 65536 cells (R21) and nothing else. -/
def Obligations.CanonicalMemoryIsKeptAndUnique : Prop :=
  ∀ (m : Memory) (a v : Word) (b : Byte), m.wf = true →
    (writeByte m a b).wf = true ∧ (writeWord m a v).wf = true ∧
    ∀ n : Memory, n.wf = true → (∀ x, readByte m x = readByte n x) → m = n

/-! ### The two stacks -/

/-- R29, R31: a push writes the word at the pointer and then takes 2 from the pointer, modulo 65536; nothing else changes, on
either stack. -/
def Obligations.PushWritesAtPointerThenDecrements : Prop :=
  ∀ (v : Word) (s : State),
    pushD v s = { s with mem := writeWord s.mem s.sp v, sp := u16 ((s.sp.toNat + 65536 - 2) % 65536) } ∧
    pushR v s = { s with mem := writeWord s.mem s.rp v, rp := u16 ((s.rp.toNat + 65536 - 2) % 65536) }

/-- R30, R32: a pop adds 2 to the pointer, modulo 65536, and gives the word there; memory and all else are unchanged, on
either stack. -/
def Obligations.PopIncrementsPointerThenReads : Prop :=
  ∀ s : State,
    popD s = (readWord s.mem (u16 ((s.sp.toNat + 2) % 65536)), { s with sp := u16 ((s.sp.toNat + 2) % 65536) }) ∧
    popR s = (readWord s.mem (u16 ((s.rp.toNat + 2) % 65536)), { s with rp := u16 ((s.rp.toNat + 2) % 65536) })

/-- R35, the bound 32768 being the spec's own inference from R29 to R32: up to 32768 words pushed and then popped come back
last first and leave the pointer where it was, on either stack and from every pointer value; and 32768 pushes bring the
pointer round, so that the next ones overwrite the first. -/
def Obligations.PushedWordsPopLastInFirstOut : Prop :=
  ∀ (vs : List Word) (s : State), s.mem.wf = true → vs.length ≤ 32768 →
    (popManyD vs.length (pushAllD vs s)).1 = vs.reverse ∧ (popManyD vs.length (pushAllD vs s)).2.sp = s.sp ∧
    (popManyR vs.length (pushAllR vs s)).1 = vs.reverse ∧ (popManyR vs.length (pushAllR vs s)).2.rp = s.rp ∧
    (vs.length = 32768 → (pushAllD vs s).sp = s.sp ∧ (pushAllR vs s).rp = s.rp)

/-! ### Encoding -/

/-- Words written out from the opcode map of R85, bit by bit, decode to the instructions they stand for; 0x0103, which ends in
the bits of `dup`, is a call (R82). -/
def Obligations.SpecWordsDecodeToTheirInstructions : Prop :=
  decode [0b00000000#8, 0b00000110#8] = .ok (.rot, []) ∧
  decode [0b00000000#8, 0b00000001#8, 0b00010010#8, 0b00110100#8] = .ok (.pushLiteral 0x1234, []) ∧
  decode [0b00000000#8, 0b00001011#8] = .ok (.storeByte, []) ∧
  decode [0b00000000#8, 0b00001110#8] = .ok (.jumpIfZero, []) ∧
  decode [0b00000000#8, 0b00010001#8] = .ok (.sub, []) ∧
  decode [0b00000000#8, 0b00011100#8] = .ok (.lt, []) ∧
  decode [0b00000000#8, 0b00011111#8] = .ok (.ret, []) ∧
  decode [0b00000000#8, 0b00100000#8] = .ok (.call 0x0020, []) ∧
  decode [0b00000001#8, 0b00000011#8] = .ok (.call 0x0103, [])

/-- R86: every word begins a defined, well-formed instruction, whose first word it is; there is no illegal instruction. And
R82: the whole word is compared, so every word from 0x0020 up, and no other, is a call, to the address equal to the word. -/
def Obligations.EveryWordIsADefinedInstruction : Prop :=
  ∀ w imm : Word,
    (firstWordInstr imm (decodeFirst w)).wellFormed = true ∧
    (encodeWords (firstWordInstr imm (decodeFirst w))).head? = some w ∧
    (0x0020 ≤ w.toNat ↔ ∃ target, decodeFirst w = .whole (.call target)) ∧
    ∀ target, decodeFirst w = .whole (.call target) → target = w

/-- R87, the spec's own inference from R82: each of the 65536 words matches exactly one of the 43 rows, and the instruction it
begins has that row's mnemonic. -/
def Obligations.OpcodeRowsPartitionTheWords : Prop :=
  opcodeRows.length = 43 ∧
  ∀ w imm : Word, ∃ row, opcodeRows.filter (rowMatches w) = [row] ∧
    mnemonic (firstWordInstr imm (decodeFirst w)) = row.mnemonic

/-- Every well-formed instruction, with every operand, is read back from its bytes, whatever bytes follow. -/
def Obligations.DecodeReadsBackEveryEncoding : Prop :=
  ∀ (i : Instr) (rest : List Byte), i.wellFormed = true → decode (encode i ++ rest) = .ok (i, rest)

/-- Bytes that decode are the bytes of the one instruction they decode to, which is well-formed; and bytes fail to decode only
when they end too soon: fewer than two, or fewer than four that begin with 0x0001. -/
def Obligations.DecodedBytesAreTheEncoding : Prop :=
  ∀ bytes : List Byte,
    (∀ i rest, decode bytes = .ok (i, rest) → i.wellFormed = true ∧ bytes = encode i ++ rest) ∧
    (∀ e, decode bytes = .error e → bytes.length < 2 ∨ (bytes.length < 4 ∧ bytes.take 2 = [0x00, 0x01]))

/-- R83 and R81: the first word alone gives the length: 4 bytes for 0x0001, 2 for every other word. -/
def Obligations.FirstWordGivesLength : Prop :=
  ∀ w imm : Word,
    instrLength (firstWordInstr imm (decodeFirst w)) = (if w = 0x0001 then 4 else 2) ∧
    (encode (firstWordInstr imm (decodeFirst w))).length = instrLength (firstWordInstr imm (decodeFirst w))

/-- R89, notation that the spec itself decided (D12; log entry 12 reads "pops" as pops of the data stack): `push v` is
`push-literal v`, and a popping primitive written with an operand is `push-literal v` and then it. -/
def Obligations.OperandFormExpandsToPushLiteral : Prop :=
  ∀ (i : Instr) (v : Nat), v < 65536 → i.popsData = true →
    expandStatement [] (.push (.num v)) = some [.pushLiteral (u16 v)] ∧
    expandStatement [] (.withOperand i (.num v)) = some [.pushLiteral (u16 v), i] ∧
    statementWords [] (.withOperand i (.num v)) = some (0x0001 :: u16 v :: encodeWords i)

/-! ### The step -/

/-- R104, with the two edges of `pc` that the spec infers from R53, R59 and R22: the fetch reads the word at `pc` and adds 2
to `pc`, modulo 65536; at 0xFFFF the word is made of the bytes at 0xFFFF and 0x0000 and `pc` becomes 0x0001, and at 0xFFFE
`pc` becomes 0x0000. A step fetches once for the opcode word and a second time for the literal of `push-literal`, and for
nothing else. -/
def Obligations.FetchReadsWordAndAdvancesPc : Prop :=
  ∀ s : State,
    fetch s = (readWord s.mem s.pc, { s with pc := u16 ((s.pc.toNat + 2) % 65536) }) ∧
    (s.pc = 0xFFFF → fetch s = (wordOfBytes (readByte s.mem 0xFFFF) (readByte s.mem 0x0000), { s with pc := 0x0001 })) ∧
    (s.pc = 0xFFFE → fetch s = (wordOfBytes (readByte s.mem 0xFFFE) (readByte s.mem 0xFFFF), { s with pc := 0x0000 })) ∧
    ((fetch s).1 = 0x0001 → fetchInstr s = (.pushLiteral (fetch (fetch s).2).1, (fetch (fetch s).2).2)) ∧
    ((fetch s).1 ≠ 0x0001 → (fetchInstr s).2 = (fetch s).2)

/-- R103: in a batch with a step left, the bytes at `pc` always decode, and the step is the execute phase of the instruction
they decode to, with `pc` past its words and one unit of the budget used. -/
def Obligations.StepRunsTheDecodedInstruction : Prop :=
  ∀ s : State, Ready s →
    ∃ i rest, decode (fetchedBytes s) = .ok (i, rest) ∧ i.wellFormed = true ∧
      step s = exec i (afterFetch s (u16 (instrLength i)))

/-- R105: an instruction uses one unit of the budget, whatever it is, and the batch goes on. -/
def Obligations.EveryInstructionUsesOneUnitOfBudget : Prop :=
  ∀ s t : State, Ready s → step s = .next t → t.budget + 1 = s.budget ∧ t.status = .running

/-- The table of R22: `pc` after each instruction, `p` being `pc` before the step. -/
def Obligations.ProgramCounterAfterEachInstruction : Prop :=
  ∀ s t : State, Ready s → step s = .next t →
    ∃ i rest, decode (fetchedBytes s) = .ok (i, rest) ∧
      t.pc = pcAfter i (afterFetch s (u16 (instrLength i))) ∧
      (i ∉ [.jump, .jumpIfZero, .jumpIfNonzero, .callIndirect, .ret] ∧ (∀ target, i ≠ .call target) →
        t.pc = s.pc + u16 (instrLength i))

/-- R69: a store into the next instruction word is seen by the very next fetch: it is the stored word that executes (no image
load taking the place of either step, log entry 5). -/
def Obligations.StoredInstructionWordExecutesNext : Prop :=
  ∀ (s : State) (i : Instr), s.mem.wf = true → Ready s → 2 ≤ s.budget → dueLoad { s with budget := s.budget - 1 } = none →
    decodeFirst (readWord s.mem s.pc) = .whole .storeWord →
    dataWord s 2 = s.pc + 2 → decodeFirst (dataWord s 4) = .whole i →
    ∃ t, step s = .next t ∧ readWord t.mem t.pc = dataWord s 4 ∧ step t = exec i (afterFetch t 2)

/-- R202 under the spec's decision D3 (log entry 8): a step of a batch faults exactly when the word it fetches is 0x0013 or
0x0014 and the top data-stack word is 0x0000, whatever the dividend, `pc` and the budget are; and in every other case it
answers a next state, so it is never refused (R103). -/
def Obligations.StepFaultsExactlyOnZeroDivisor : Prop :=
  ∀ s : State, Ready s →
    (step s = .fault .divideByZero ↔
      (readWord s.mem s.pc = 0x0013 ∨ readWord s.mem s.pc = 0x0014) ∧ dataWord s 2 = 0x0000) ∧
    (step s = .fault .divideByZero ∨ ∃ t, step s = .next t)

/-! ### What the instructions do -/

/-- R120, R122: `nop` does nothing; `drop` adds 2 to `sp` and leaves memory as it is. -/
def Obligations.NopAndDropEffect : Prop :=
  decodeFirst 0x0000 = .whole .nop ∧ decodeFirst 0x0002 = .whole .drop ∧
  ∀ s : State,
    exec .nop s = .next s ∧
    exec .drop s = .next { s with sp := s.sp + 2 }

/-- R121: `push-literal` pushes the word after the opcode word, read before the push writes; the step ends with `pc` 4 on. -/
def Obligations.PushLiteralPushesTheNextWord : Prop :=
  decodeFirst 0x0001 = .literalFollows ∧
  (∀ (imm : Word) (s : State),
    exec (.pushLiteral imm) s = .next { s with mem := writeWord s.mem s.sp imm, sp := s.sp - 2 }) ∧
  ∀ s : State, Ready s → readWord s.mem s.pc = 0x0001 →
    step s = .next
      { s with
        mem := writeWord s.mem s.sp (readWord s.mem (s.pc + 2))
        sp := s.sp - 2
        pc := s.pc + 4
        budget := s.budget - 1 }

/-- R123, R125: the net effects of `dup` and `over`: the pushes that put a word back where it was read change nothing. -/
def Obligations.DupAndOverNetEffect : Prop :=
  decodeFirst 0x0003 = .whole .dup ∧ decodeFirst 0x0005 = .whole .overWord ∧
  ∀ s : State, s.mem.wf = true →
    exec .dup s = .next { s with mem := writeWord s.mem s.sp (dataWord s 2), sp := s.sp - 2 } ∧
    exec .overWord s = .next { s with mem := writeWord s.mem s.sp (dataWord s 4), sp := s.sp - 2 }

/-- R124, R126: the net effects of `swap` and `rot`, and that `swap` twice and (the spec's own inference) `rot` three times
leave the whole state as it was. -/
def Obligations.SwapAndRotNetEffect : Prop :=
  decodeFirst 0x0004 = .whole .swap ∧ decodeFirst 0x0006 = .whole .rot ∧
  ∀ s : State, s.mem.wf = true →
    exec .swap s = .next
      { s with mem := writeWord (writeWord s.mem (s.sp + 4) (dataWord s 2)) (s.sp + 2) (dataWord s 4) } ∧
    exec .rot s = .next
      { s with
        mem := writeWord (writeWord (writeWord s.mem (s.sp + 6) (dataWord s 4)) (s.sp + 4) (dataWord s 2)) (s.sp + 2)
          (dataWord s 6) } ∧
    (∃ t, exec .swap s = .next t ∧ exec .swap t = .next s) ∧
    (∃ t u, exec .rot s = .next t ∧ exec .rot t = .next u ∧ exec .rot u = .next s)

/-- R127, R128: a word moved from the data stack to the return stack, and back; the two in a row (the spec's own inference)
restore both pointers and the top word. -/
def Obligations.ReturnStackMovesEffect : Prop :=
  decodeFirst 0x0007 = .whole .toReturn ∧ decodeFirst 0x0008 = .whole .fromReturn ∧
  ∀ s : State,
    exec .toReturn s = .next
      { s with mem := writeWord s.mem s.rp (dataWord s 2), sp := s.sp + 2, rp := s.rp - 2 } ∧
    exec .fromReturn s = .next
      { s with mem := writeWord s.mem s.sp (readWord s.mem (s.rp + 2)), sp := s.sp - 2, rp := s.rp + 2 } ∧
    (s.mem.wf = true → ∃ t u, exec .toReturn s = .next t ∧ exec .fromReturn t = .next u ∧ u.sp = s.sp ∧ u.rp = s.rp ∧
      dataWord u 2 = dataWord s 2)

/-- R129, with the trace that the spec infers from R122 and R123: `dup` then `drop` leaves the pointer and the top word as
they were, and of memory changes only the word at the pointer, which becomes a copy of the top word. -/
def Obligations.DupThenDropLeavesOnlyACopy : Prop :=
  ∀ s : State, s.mem.wf = true →
    ∃ t u, exec .dup s = .next t ∧ exec .drop t = .next u ∧ u.sp = s.sp ∧ dataWord u 2 = dataWord s 2 ∧
      readWord u.mem s.sp = dataWord s 2 ∧ ∀ a, a ∉ wordCells s.sp → readByte u.mem a = readByte s.mem a

/-- R140, R141: the byte at the popped address, zero-extended, or the big-endian word there, takes the place of the address.
-/
def Obligations.LoadsEffect : Prop :=
  decodeFirst 0x0009 = .whole .loadByte ∧ decodeFirst 0x000A = .whole .loadWord ∧
  ∀ s : State,
    exec .loadByte s = .next
      { s with mem := writeWord s.mem (s.sp + 2) (wordOfBytes 0x00 (readByte s.mem (dataWord s 2))) } ∧
    exec .loadWord s = .next
      { s with
        mem := writeWord s.mem (s.sp + 2)
          (wordOfBytes (readByte s.mem (dataWord s 2)) (readByte s.mem (dataWord s 2 + 1))) }

/-- R142, R143: the low byte of the value, or the value high byte first, goes to the popped address; `sp` ends 4 up. -/
def Obligations.StoresEffect : Prop :=
  decodeFirst 0x000B = .whole .storeByte ∧ decodeFirst 0x000C = .whole .storeWord ∧
  ∀ s : State,
    exec .storeByte s = .next
      { s with mem := writeByte s.mem (dataWord s 2) (u8 ((dataWord s 4).toNat % 256)), sp := s.sp + 4 } ∧
    exec .storeWord s = .next
      { s with
        mem := writeByte (writeByte s.mem (dataWord s 2) (u8 ((dataWord s 4).toNat / 256))) (dataWord s 2 + 1)
          (u8 ((dataWord s 4).toNat % 256))
        sp := s.sp + 4 }

/-- R150 to R152: `jump` goes to the popped address; the conditional jumps pop the address and the flag in either case, and
only 0x0000 counts as zero; not taken, `pc` stays. -/
def Obligations.JumpsEffect : Prop :=
  decodeFirst 0x000D = .whole .jump ∧ decodeFirst 0x000E = .whole .jumpIfZero ∧
  decodeFirst 0x000F = .whole .jumpIfNonzero ∧
  ∀ s : State,
    exec .jump s = .next { s with pc := dataWord s 2, sp := s.sp + 2 } ∧
    exec .jumpIfZero s = .next
      { s with pc := if (dataWord s 4).toNat = 0 then dataWord s 2 else s.pc, sp := s.sp + 4 } ∧
    exec .jumpIfNonzero s = .next
      { s with pc := if (dataWord s 4).toNat = 0 then s.pc else dataWord s 2, sp := s.sp + 4 }

/-- R153 to R155: both calls push the address after the call word; `call-indirect` pushes it before it pops the target, so
that where the two stacks overlap the return address overwrites the target; `return` goes to the popped address. -/
def Obligations.CallsAndReturnEffect : Prop :=
  decodeFirst 0x001E = .whole .callIndirect ∧ decodeFirst 0x001F = .whole .ret ∧
  ∀ (s : State) (w : Word),
    exec .callIndirect s = .next
      { s with
        mem := writeWord s.mem s.rp s.pc
        rp := s.rp - 2
        sp := s.sp + 2
        pc := readWord (writeWord s.mem s.rp s.pc) (s.sp + 2) } ∧
    exec .ret s = .next { s with pc := readWord s.mem (s.rp + 2), rp := s.rp + 2 } ∧
    exec (.call w) s = .next { s with mem := writeWord s.mem s.rp s.pc, rp := s.rp - 2, pc := w } ∧
    (0x0020 ≤ w.toNat → decodeFirst w = .whole (.call w))

/-- R156 under the spec's decision D14: a `return` that pops the word a call pushed resumes after the call word: at `p + 2`,
for a call word at `p`. -/
def Obligations.ReturnResumesAfterTheCall : Prop :=
  ∀ s t : State, s.mem.wf = true → Ready s → 0x0020 ≤ (readWord s.mem s.pc).toNat → step s = .next t →
    t.pc = readWord s.mem s.pc ∧ readWord t.mem s.rp = s.pc + 2 ∧
    ∃ u, exec .ret t = .next u ∧ u.pc = s.pc + 2 ∧ u.rp = s.rp ∧ u.sp = s.sp

/-- R170 to R173: sum, difference and low half of the product of the word below the top and the top word, modulo 65536. -/
def Obligations.AddSubMulEffect : Prop :=
  decodeFirst 0x0010 = .whole .add ∧ decodeFirst 0x0011 = .whole .sub ∧ decodeFirst 0x0012 = .whole .mul ∧
  ∀ s : State,
    exec .add s = .next
      { s with mem := writeWord s.mem (s.sp + 4) (u16 ((dataWord s 4).toNat + (dataWord s 2).toNat)), sp := s.sp + 2 } ∧
    exec .sub s = .next
      { s with
        mem := writeWord s.mem (s.sp + 4) (u16 ((dataWord s 4).toNat + 65536 - (dataWord s 2).toNat))
        sp := s.sp + 2 } ∧
    exec .mul s = .next
      { s with mem := writeWord s.mem (s.sp + 4) (u16 ((dataWord s 4).toNat * (dataWord s 2).toNat)), sp := s.sp + 2 }

/-- R174, R175: the unsigned quotient and remainder for a divisor, the top word, that is not zero; for a zero divisor, by the
spec's decision D3 (log entry 8), DivideByZero, whatever the dividend is. -/
def Obligations.DivModEffect : Prop :=
  decodeFirst 0x0013 = .whole .div ∧ decodeFirst 0x0014 = .whole .mod ∧
  ∀ s : State,
    (dataWord s 2 ≠ 0x0000 →
      exec .div s = .next
        { s with mem := writeWord s.mem (s.sp + 4) (u16 ((dataWord s 4).toNat / (dataWord s 2).toNat)), sp := s.sp + 2 } ∧
      exec .mod s = .next
        { s with mem := writeWord s.mem (s.sp + 4) (u16 ((dataWord s 4).toNat % (dataWord s 2).toNat)), sp := s.sp + 2 }) ∧
    (dataWord s 2 = 0x0000 → exec .div s = .fault .divideByZero ∧ exec .mod s = .fault .divideByZero)

/-- R176 to R179: the bitwise operations, bit by bit over the 16 bits; `not` replaces the top word by 0xFFFF minus it. -/
def Obligations.BitwiseEffect : Prop :=
  decodeFirst 0x0015 = .whole .and ∧ decodeFirst 0x0016 = .whole .or ∧ decodeFirst 0x0017 = .whole .xor ∧
  decodeFirst 0x0018 = .whole .not ∧
  ∀ s : State, ∃ conj disj excl : Word,
    exec .and s = .next { s with mem := writeWord s.mem (s.sp + 4) conj, sp := s.sp + 2 } ∧
    exec .or s = .next { s with mem := writeWord s.mem (s.sp + 4) disj, sp := s.sp + 2 } ∧
    exec .xor s = .next { s with mem := writeWord s.mem (s.sp + 4) excl, sp := s.sp + 2 } ∧
    (∀ k : Nat, k < 16 →
      conj.getLsbD k = ((dataWord s 4).getLsbD k && (dataWord s 2).getLsbD k) ∧
      disj.getLsbD k = ((dataWord s 4).getLsbD k || (dataWord s 2).getLsbD k) ∧
      excl.getLsbD k = ((dataWord s 4).getLsbD k != (dataWord s 2).getLsbD k)) ∧
    exec .not s = .next { s with mem := writeWord s.mem (s.sp + 2) (u16 (65535 - (dataWord s 2).toNat)) }

/-- R180, R181: `a * 2^b` modulo 65536 and `a div 2^b`, the whole top word being the count, so that every count from 16 up, by
the spec's decision D5 (log entry 9), gives 0x0000. -/
def Obligations.ShiftsEffect : Prop :=
  decodeFirst 0x0019 = .whole .shl ∧ decodeFirst 0x001A = .whole .shr ∧
  ∀ s : State, ∃ left right : Word,
    exec .shl s = .next { s with mem := writeWord s.mem (s.sp + 4) left, sp := s.sp + 2 } ∧
    exec .shr s = .next { s with mem := writeWord s.mem (s.sp + 4) right, sp := s.sp + 2 } ∧
    left.toNat = (dataWord s 4).toNat * 2 ^ (dataWord s 2).toNat % 65536 ∧
    right.toNat = (dataWord s 4).toNat / 2 ^ (dataWord s 2).toNat ∧
    (16 ≤ (dataWord s 2).toNat → left = 0x0000 ∧ right = 0x0000)

/-- R191 to R193: 0xFFFF or 0x0000 as the unsigned comparison of the word below the top with the top word holds or not. -/
def Obligations.ComparisonsEffect : Prop :=
  decodeFirst 0x001B = .whole .eq ∧ decodeFirst 0x001C = .whole .lt ∧ decodeFirst 0x001D = .whole .le ∧
  ∀ s : State,
    exec .eq s = .next
      { s with
        mem := writeWord s.mem (s.sp + 4) (if (dataWord s 4).toNat = (dataWord s 2).toNat then 0xFFFF else 0x0000)
        sp := s.sp + 2 } ∧
    exec .lt s = .next
      { s with
        mem := writeWord s.mem (s.sp + 4) (if (dataWord s 4).toNat < (dataWord s 2).toNat then 0xFFFF else 0x0000)
        sp := s.sp + 2 } ∧
    exec .le s = .next
      { s with
        mem := writeWord s.mem (s.sp + 4) (if (dataWord s 4).toNat ≤ (dataWord s 2).toNat then 0xFFFF else 0x0000)
        sp := s.sp + 2 }

/-! ### What the instructions leave alone -/

/-- R36: an instruction writes nothing but `mem`, `pc`, `sp` and `rp`: the status, the budget and the host's actions stay. And
R85: `sp` and `rp` move by the pops and pushes of its stack picture, so `rp` only by `to-return`, `from-return`,
`call-indirect`, `return` and `call`. And of the instructions only the control transfers move `pc` in their execute phase. -/
def Obligations.RegisterFrameOfEveryInstruction : Prop :=
  ∀ (i : Instr) (s t : State), exec i s = .next t →
    t.status = s.status ∧ t.budget = s.budget ∧ t.pending = s.pending ∧
    t.sp = pointerAfter s.sp (dataPicture i) ∧ t.rp = pointerAfter s.rp (returnPicture i) ∧ t.pc = pcAfter i s

/-- An instruction changes no cell but those its rule stores to: for each instruction and each state `storedCells` computes
them (none for `nop`, `drop`, the jumps and `return`; the slots of the stack it pushes on; the cell or the two cells at the
popped address for the stores). -/
def Obligations.MemoryFrameOfEveryInstruction : Prop :=
  ∀ (i : Instr) (s t : State) (a : Word), s.mem.wf = true → exec i s = .next t → a ∉ storedCells i s →
    readByte t.mem a = readByte s.mem a

/-- R200 to R202 under the spec's decisions D3 and D4 (log entry 8): an instruction faults exactly when it is `div` or `mod`
and the top data-stack word is zero; the fault is DivideByZero, cause code 1; in every other case it answers a next state, so
no instruction is ever refused. -/
def Obligations.OnlyDivisionByZeroFaults : Prop :=
  ∀ (i : Instr) (s : State),
    (DividesByZero i s → exec i s = .fault .divideByZero ∧ causeCode .divideByZero = 1) ∧
    (¬ DividesByZero i s → ∃ t, exec i s = .next t)

/-- R26 and R143 under the spec's resolution of conflict C1 (decision D10; log entry 10): a store-word into the save area
changes memory only: `pc`, `sp` and `rp` are what they would be anyway, and the write-back puts the live registers there,
whatever was stored. -/
def Obligations.StoreToSaveAreaDoesNotReachRegisters : Prop :=
  ∀ s t : State, s.mem.wf = true → (dataWord s 2).toNat < 6 → exec .storeWord s = .next t →
    t.pc = s.pc ∧ t.sp = s.sp + 4 ∧ t.rp = s.rp ∧
    readWord (writeBack t).mem Config.savedPc = s.pc ∧ readWord (writeBack t).mem Config.savedSp = s.sp + 4 ∧
    readWord (writeBack t).mem Config.savedRp = s.rp

/-- A step depends on the cells it touches and on no other, and changes no other: from two memories that agree on them, with
the registers equal, it answers alike, with the same registers and the same contents of those cells, and every other cell is
left as it was. -/
def Obligations.StepDependsOnlyOnCellsItTouches : Prop :=
  ∀ (s : State) (m : Memory), s.mem.wf = true → m.wf = true →
    (∀ a ∈ stepCells s, readByte m a = readByte s.mem a) →
    (∃ t t', instrStep s = .next t ∧ instrStep { s with mem := m } = .next t' ∧
      t' = { t with mem := t'.mem } ∧
      (∀ a ∈ stepCells s, readByte t'.mem a = readByte t.mem a) ∧
      (∀ a, a ∉ stepCells s → readByte t.mem a = readByte s.mem a ∧ readByte t'.mem a = readByte m a)) ∨
    (∃ f, instrStep s = .fault f ∧ instrStep { s with mem := m } = .fault f)

/-! ### Batches -/

/-- R102 (every value accepted by the spec's decision D7, the order unobservable, D20): at the start of a batch the live
registers are the words at 0x0000, 0x0002 and 0x0004, whatever they held before; memory is unchanged. -/
def Obligations.BatchStartLoadsRegistersFromSaveArea : Prop :=
  ∀ (s : State) (n : Nat) (rest : List HostAction), s.status = .idle → s.pending = .run n :: rest →
    step s = .next
      { s with
        pc := wordOfBytes (readByte s.mem 0x0000) (readByte s.mem 0x0001)
        sp := wordOfBytes (readByte s.mem 0x0002) (readByte s.mem 0x0003)
        rp := wordOfBytes (readByte s.mem 0x0004) (readByte s.mem 0x0005)
        status := .running
        budget := n
        pending := rest }

/-- R106: a batch whose steps are done stores the three live registers, high byte first, into the six cells 0x0000 to 0x0005,
whatever was there, changes no other cell, and leaves the core Idle (unless an image load is due just then, log entry 5). -/
def Obligations.WriteBackStoresRegistersInSaveArea : Prop :=
  ∀ s : State, s.mem.wf = true → s.status = .running → s.budget = 0 → dueLoad s = none →
    ∃ t, step s = .next t ∧ t = { s with mem := t.mem, status := .idle } ∧
      readWord t.mem 0x0000 = s.pc ∧ readWord t.mem 0x0002 = s.sp ∧ readWord t.mem 0x0004 = s.rp ∧
      ∀ a : Word, 6 ≤ a.toNat → readByte t.mem a = readByte s.mem a

/-- R107, the spec's own inference from R101: `Run(0)` loads the registers and writes them back: memory ends as it began, with
the live registers as saved. -/
def Obligations.RunOfZeroStepsChangesNoMemory : Prop :=
  ∀ s : State, s.mem.wf = true → s.status = .idle →
    runBatch 0 s = .next
      { s with pc := readWord s.mem 0x0000, sp := readWord s.mem 0x0002, rp := readWord s.mem 0x0004 }

/-- R101, `Run(n)` being cut into `n + 2` steps of the machine by the model's choice (log entry 7): on an Idle core it is,
step by step, the load, exactly `n` instructions and the write-back; a fault ends both alike. No image load is due in the
midst of the batch, as none of the documented host's ever is (log entry 5). -/
def Obligations.RunIsLoadThenStepsThenWriteBack : Prop :=
  ∀ (s : State) (n : Nat) (rest : List HostAction), s.status = .idle → s.budget = 0 → s.pending = .run n :: rest →
    (∀ k, k ≤ n → dueLoad { s with budget := k, pending := rest } = none) →
    Host.Core.run Sys2Proof.core (n + 2) s = runBatch n { s with pending := rest }

/-- R108, the spec's own inference from R101, R102 and R106: two batches in a row end as the one batch of their sum does,
provided no step after the split touches 0x0000 to 0x0005; registers and memory are then the same. -/
def Obligations.BatchesComposeOutsideTheSaveArea : Prop :=
  ∀ (s t : State) (n1 n2 : Nat), s.mem.wf = true → s.status = .idle → runBatch (n1 + n2) s = .next t →
    (∀ k u, k < n2 → repeatStep (n1 + k) { loadRegisters s with status := .running } = .next u →
      ∀ a ∈ stepCells u, 6 ≤ a.toNat) →
    ∃ m, runBatch n1 s = .next m ∧ runBatch n2 m = .next t

/-- R27: within a batch the frame counter keeps its value unless an instruction of the program stores to its cells. -/
def Obligations.FrameCounterConstantWithinABatch : Prop :=
  ∀ (n : Nat) (s t : State), s.mem.wf = true → repeatStep n s = .next t →
    (∀ k u, k < n → repeatStep k s = .next u →
      ∀ a ∈ storedCells (fetchInstr u).1 (fetchInstr u).2, a ≠ 0x0006 ∧ a ≠ 0x0007) →
    readWord t.mem 0x0006 = readWord s.mem 0x0006

/-! ### The host, faults and reset -/

/-- R66 and R100: while Running the core heeds nothing of the host, but for an image load in the midst of the batch, which
R230 lets be applied in any status (the model's choice how, log entry 5): whatever other actions wait, the step is the same,
and they still wait. -/
def Obligations.HostCannotActDuringABatch : Prop :=
  ∀ (s : State) (waiting : List HostAction), s.status = .running → dueLoad s = none →
    dueLoad { s with pending := waiting } = none →
    (∃ t, step s = .next t ∧ step { s with pending := waiting } = .next { t with pending := waiting } ∧
      t.pending = s.pending) ∨
    (∃ f, step s = .fault f ∧ step { s with pending := waiting } = .fault f)

/-- R39, state that the spec itself added (decisions D1, D3): how a step to a next state changes the status. From Idle only
the start of a batch leads on, to Running; from Running the write-back, with no step left, leads to Idle, and so does an image
load due in the midst of the batch, which R230 has though R39's table leaves it out (log entry 5); from Faulted, and from the
model's own state before any image (log entry 11), only the load of an image of 65536 bytes leads on, to Idle. (A step that
faults has no next state: `FaultLeavesTheCoreFaulted`.) -/
def Obligations.StatusChangesOnlyAtBatchBoundaries : Prop :=
  ∀ s t : State, step s = .next t →
    (s.status = .idle → t.status = .idle ∨ (t.status = .running ∧ ∃ n rest, s.pending = .run n :: rest ∧ t.budget = n)) ∧
    (s.status = .running → (t.status = .running ∧ 0 < s.budget) ∨ (t.status = .idle ∧ s.budget = 0) ∨
      (t.status = .idle ∧ ∃ image rest, s.pending = .loadImageDuring s.budget image :: rest ∧ image.length = 65536)) ∧
    (∀ f, s.status = .faulted f → t.status = .faulted f ∨
      (t.status = .idle ∧ ∃ act image rest, s.pending = act :: rest ∧ loadedImage act = some image ∧ image.length = 65536)) ∧
    (s.status = .unloaded → t.status = .unloaded ∨
      (t.status = .idle ∧ ∃ act image rest, s.pending = act :: rest ∧ loadedImage act = some image ∧ image.length = 65536))

/-- R203 under the spec's decisions D3, D4 and D18 (log entries 4 and 8): when a step faults, the batch was Running, and after
it the core is Faulted with cause code 1 and no step left. -/
def Obligations.FaultLeavesTheCoreFaulted : Prop :=
  ∀ (s : State) (f : Fault), step s = .fault f →
    s.status = .running ∧ 0 < s.budget ∧
    (proceed s).status = .faulted f ∧ causeCode f = 1 ∧ (proceed s).budget = 0 ∧ (proceed s).pending = s.pending

/-- R204 under the spec's decisions D6 and D11 (log entry 11): a Faulted core refuses `Run`, executes nothing, and stays
Faulted however long it is stepped, until an image is loaded. -/
def Obligations.OnlyAnImageLoadLeavesFaulted : Prop :=
  ∀ (s : State) (f : Fault), s.status = .faulted f →
    (∀ n rest, s.pending = .run n :: rest →
      step s = .refused .runNotIdle ∧ proceed s = { s with pending := rest }) ∧
    (∀ act image rest, s.pending = act :: rest → loadedImage act = some image → image.length = 65536 →
      ∃ t, step s = .next t ∧ t.status = .idle) ∧
    (∀ k, (∀ act ∈ s.pending, loadedImage act = none) → (proceedN k s).status = .faulted f)

/-- R230 and R214 under the spec's decision D6 (log entries 2 and 5): loading an image of 65536 bytes puts byte `x` of it at
address `x` for every `x` and leaves the core Idle, whatever the status; the host's load is that, from Idle, from Faulted,
before any image and, at the point of a batch that it names, from Running; an image of another length is refused and changes
nothing. -/
def Obligations.ImageLoadSetsEveryCell : Prop :=
  ∀ (s : State) (image : List Byte),
    (image.length = 65536 →
      (loadImage image s).status = .idle ∧ ∀ x : Word, image[x.toNat]? = some (readByte (loadImage image s).mem x)) ∧
    ∀ (act : HostAction) (rest : List HostAction), s.pending = act :: rest →
      ((s.status ≠ .running ∧ loadedImage act = some image) ∨
        (s.status = .running ∧ act = .loadImageDuring s.budget image)) →
      (image.length = 65536 → step s = .next { loadImage image s with pending := rest }) ∧
      (image.length ≠ 65536 → step s = .refused .imageLength ∧ proceed s = { s with pending := rest })

/-- R209: one frame tick adds 1 to the word at 0x0006, modulo 65536, and changes no other cell and no register; a Faulted core
is not ticked (R100; log entry 11). -/
def Obligations.FrameTickIncrementsTheCounter : Prop :=
  ∀ (s : State) (rest : List HostAction), s.mem.wf = true → s.pending = .frameTick :: rest →
    (s.status = .idle → ∃ t, step s = .next t ∧ t = { s with mem := t.mem, pending := rest } ∧
      (readWord t.mem 0x0006).toNat = ((readWord s.mem 0x0006).toNat + 1) % 65536 ∧
      ∀ a : Word, a ≠ 0x0006 → a ≠ 0x0007 → readByte t.mem a = readByte s.mem a) ∧
    (∀ f, s.status = .faulted f → step s = .refused .hostWriteNotIdle)

/-- R209 for both values of FRAME_TICK, which decision D8 leaves OPEN (log entry 13): in one frame, with the tick before or
after the `Run`, a program that does not store to the frame counter's cells finds it larger by one, modulo 65536, at the end,
and the core Idle. -/
def Obligations.FrameOfEitherOrderCountsOne : Prop :=
  ∀ (order : Config.FrameTick) (n : Nat) (s t : State), s.mem.wf = true → s.status = .idle →
    runFrame order n s = .next t →
    (∀ k u, k < n → repeatStep k { loadRegisters (frameStart order s) with status := .running } = .next u →
      ∀ a ∈ storedCells (fetchInstr u).1 (fetchInstr u).2, a ≠ 0x0006 ∧ a ≠ 0x0007) →
    t.status = .idle ∧ (readWord t.mem 0x0006).toNat = ((readWord s.mem 0x0006).toNat + 1) % 65536

/-- R62, R210: pixel (x, y) is the byte at 0x0400 + 128*y + x, a formula that the spec itself infers from row-major (log entry
16), inside the frame buffer; a store-byte there sets it to the low byte of the value and changes no other pixel and no
palette entry; and palette entry 0 = (255,0,0) with a frame buffer of zeros shows red everywhere. -/
def Obligations.StoreByteDrawsOnePixel : Prop :=
  ∀ (s t : State) (x y : Nat), s.mem.wf = true → x < 128 → y < 128 →
    (pixelAddress x y).toNat = 0x0400 + 128 * y + x ∧ (pixelAddress x y).toNat ≤ 0x43FF ∧
    (dataWord s 2 = pixelAddress x y → exec .storeByte s = .next t →
      pixel t.mem x y = loByte (dataWord s 4) ∧
      (∀ x' y', x' < 128 → y' < 128 → (x', y') ≠ (x, y) → pixel t.mem x' y' = pixel s.mem x' y') ∧
      ∀ i, paletteEntry t.mem i = paletteEntry s.mem i) ∧
    ((∀ a : Word, 0x0400 ≤ a.toNat → a.toNat ≤ 0x43FF → readByte s.mem a = 0x00) →
      readByte s.mem 0x0100 = 0xFF → readByte s.mem 0x0101 = 0x00 → readByte s.mem 0x0102 = 0x00 →
      pixelColour s.mem x y = (0xFF, 0x00, 0x00))

/-- What `State.reset` is: the load of the image of 65536 zeros (the model's choice of IMAGE, log entry 1), status Idle, no
batch, the live registers 0 (the model's choice, log entry 2). -/
def Obligations.ResetIsTheLoadOfTheZeroImage : Prop :=
  State.reset.status = .idle ∧ State.reset.budget = 0 ∧ State.reset.pending = [] ∧
  (∀ a, readByte State.reset.mem a = 0x00) ∧
  (∀ s : State, s.pending = [] → loadImage (List.replicate 65536 0x00) s = State.reset)

/-- The invariant holds after reset (the model's `State.reset`, log entries 1 and 2). -/
def Obligations.InvariantHoldsAtReset : Prop := State.reset.Inv

/-- Every step keeps the invariant, from every state that has it; and so does going on after a fault or a refusal. -/
def Obligations.EveryStepKeepsTheInvariant : Prop :=
  ∀ s : State, s.Inv → (∀ t, step s = .next t → t.Inv) ∧ (proceed s).Inv

/-- R101 and R214 under the spec's decision D11, in the model's own state before any image (log entry 11): `Run` is refused,
as a step and as a whole operation; so are the tick, a write, and an image of the wrong length; a refused request changes
nothing and is dropped; the core stays as it is however long it is stepped, until an image of 65536 bytes is loaded, which is
reset. -/
def Obligations.NothingRunsBeforeAnImageIsLoaded : Prop :=
  State.beforeImage.status = .unloaded ∧
  ∀ s : State, s.status = .unloaded →
    (∀ n rest, s.pending = .run n :: rest → step s = .refused .runNotIdle) ∧
    (∀ n, runBatch n s = .refused .runNotIdle) ∧
    (∀ act image rest, s.pending = act :: rest → loadedImage act = some image →
      (image.length ≠ 65536 → step s = .refused .imageLength) ∧
      (image.length = 65536 → step s = .next { loadImage image s with pending := rest })) ∧
    (∀ act rest, s.pending = act :: rest → (∀ image, loadedImage act = some image → image.length ≠ 65536) →
      (∃ r, step s = .refused r) ∧ proceed s = { s with pending := rest }) ∧
    (∀ k, (∀ act ∈ s.pending, ∀ image, loadedImage act = some image → image.length ≠ 65536) →
      proceedN k s = { s with pending := s.pending.drop k })
end

