-- ==== Sys2Proof/Laws/Decode.lean ====
section
/-! SUPPORT. What the decoder makes of a first word: the spec lemma of `decodeFirst`, by which later proofs need not split
its 33 cases again. -/

namespace Sys2Proof

theorem decodeFirst_call {w : Word} (h : 0x0020 ≤ w.toNat) : decodeFirst w = .whole (.call w) := by
  unfold decodeFirst
  split <;> first
    | rfl
    | (exfalso; revert h; decide)

/-- Every word is 0x0001, or it is the whole of one well-formed instruction. -/
theorem decodeFirst_spec (w : Word) :
    (decodeFirst w = .literalFollows ∧ w = 0x0001) ∨
    (∃ i, decodeFirst w = .whole i ∧ i.wellFormed = true ∧ encodeWords i = [w] ∧ w ≠ 0x0001) := by
  by_cases h : 0x0020 ≤ w.toNat
  · exact .inr ⟨_, decodeFirst_call h, by simpa [Instr.wellFormed] using h, rfl, by rintro rfl; revert h; decide⟩
  · obtain ⟨k, hk⟩ : ∃ k : Fin 32, w = BitVec.ofNat 16 k.val := ⟨⟨w.toNat, by omega⟩, by simp⟩
    subst hk
    revert h
    fin_cases k <;> intro h <;> first
      | exact .inl ⟨rfl, rfl⟩
      | exact .inr ⟨_, rfl, rfl, rfl, by decide⟩

end Sys2Proof
end

