-- ==== Sys2Proof/Laws/Memory.lean ====
section
/-! SUPPORT. The laws of memory: read after write, the canonical form and its uniqueness, big-endian words, and the memory of
an image. -/

namespace Sys2Proof

/-! ### Words and their bytes -/

theorem wordOfBytes_hiByte_loByte (v : Word) : wordOfBytes (hiByte v) (loByte v) = v := by
  apply BitVec.eq_of_toNat_eq
  have := v.isLt
  simp only [wordOfBytes, hiByte, loByte, BitVec.toNat_ofNat]
  omega

theorem hiByte_wordOfBytes (h l : Byte) : hiByte (wordOfBytes h l) = h := by
  apply BitVec.eq_of_toNat_eq
  have := h.isLt
  have := l.isLt
  simp only [wordOfBytes, hiByte, BitVec.toNat_ofNat]
  omega

theorem loByte_wordOfBytes (h l : Byte) : loByte (wordOfBytes h l) = l := by
  apply BitVec.eq_of_toNat_eq
  have := h.isLt
  have := l.isLt
  simp only [wordOfBytes, loByte, BitVec.toNat_ofNat]
  omega

end Sys2Proof

namespace Sys2Proof.Machine

/-! ### Cells -/

theorem cellsFrom_cons {low k : Nat} {v : Byte} {rest : Memory} :
    cellsFrom low ((k, v) :: rest) = true ↔
      low ≤ k ∧ k < 65536 ∧ v ≠ unlistedByte ∧ cellsFrom (k + 1) rest = true := by
  simp only [cellsFrom, Bool.and_eq_true, decide_eq_true_eq, and_assoc]

theorem cellsFrom_mono {low low' : Nat} {m : Memory} (h : low' ≤ low) (hm : cellsFrom low m = true) :
    cellsFrom low' m = true := by
  cases m with
  | nil => rfl
  | cons c rest =>
    obtain ⟨k, v⟩ := c
    rw [cellsFrom_cons] at hm ⊢
    exact ⟨by omega, hm.2⟩

/-- Below the lowest listed address every cell reads as unlisted. -/
theorem readCell_below {m : Memory} {low a : Nat} (hm : cellsFrom low m = true) (h : a < low) :
    readCell m a = unlistedByte := by
  induction m generalizing low with
  | nil => rfl
  | cons c rest ih =>
    obtain ⟨k, v⟩ := c
    rw [cellsFrom_cons] at hm
    rw [readCell, if_neg (by omega)]
    exact ih hm.2.2.2 (by omega)

theorem readCell_writeCell {m : Memory} {low : Nat} (hm : cellsFrom low m = true) (a b : Nat) (v : Byte) :
    readCell (writeCell m a v) b = if b = a then v else readCell m b := by
  induction m generalizing low with
  | nil =>
    by_cases hv : v = unlistedByte
    · simp [writeCell, readCell, hv]
    · by_cases hb : b = a
      · simp [writeCell, readCell, hv, hb]
      · simp [writeCell, readCell, hv, hb, show ¬a = b from fun h => hb h.symm]
  | cons c rest ih =>
    obtain ⟨k, x⟩ := c
    rw [cellsFrom_cons] at hm
    obtain ⟨_, _, _, hr⟩ := hm
    unfold writeCell
    split
    · rename_i hlt
      have hbelow : readCell ((k, x) :: rest) a = unlistedByte :=
        readCell_below (low := k) (cellsFrom_cons.2 ⟨le_refl k, by assumption, by assumption, hr⟩) hlt
      split
      · rename_i hv
        by_cases hb : b = a
        · simp [hb, hbelow, hv]
        · simp [hb]
      · by_cases hb : b = a
        · simp [hb, readCell]
        · rw [readCell, if_neg (by omega), if_neg hb]
    · split
      · rename_i hak
        subst hak
        split
        · rename_i hv
          by_cases hb : b = a
          · rw [if_pos hb, hb, readCell_below hr (by omega), hv]
          · rw [if_neg hb, readCell, if_neg (by omega)]
        · by_cases hb : b = a
          · simp [hb, readCell]
          · rw [readCell, if_neg (by omega), if_neg hb, readCell, if_neg (by omega)]
      · by_cases hkb : k = b
        · rw [readCell, if_pos hkb, if_neg (by omega), readCell, if_pos hkb]
        · rw [readCell, if_neg hkb, ih hr, readCell, if_neg hkb]

theorem cellsFrom_writeCell {m : Memory} {low a : Nat} (hm : cellsFrom low m = true) (hl : low ≤ a) (ha : a < 65536)
    (v : Byte) : cellsFrom low (writeCell m a v) = true := by
  induction m generalizing low with
  | nil =>
    by_cases hv : v = unlistedByte
    · simp [writeCell, hv, cellsFrom]
    · simp [writeCell, hv, cellsFrom, Config.memorySize, hl, ha]
  | cons c rest ih =>
    obtain ⟨k, x⟩ := c
    have hm' := hm
    rw [cellsFrom_cons] at hm
    obtain ⟨hlk, hk, hx, hr⟩ := hm
    unfold writeCell
    split
    · split
      · exact hm'
      · exact cellsFrom_cons.2 ⟨hl, ha, by assumption, cellsFrom_cons.2 ⟨by omega, hk, hx, hr⟩⟩
    · split
      · split
        · exact cellsFrom_mono (by omega) hr
        · rename_i hak hv
          exact cellsFrom_cons.2 ⟨hl, ha, hv, by subst hak; exact hr⟩
      · exact cellsFrom_cons.2 ⟨hlk, hk, hx, ih hr (by omega)⟩

/-- Canonical memories with the same contents are the same data. -/
theorem cellsFrom_ext {m n : Memory} {low : Nat} (hm : cellsFrom low m = true) (hn : cellsFrom low n = true)
    (h : ∀ a, a < 65536 → readCell m a = readCell n a) : m = n := by
  induction m generalizing n low with
  | nil =>
    cases n with
    | nil => rfl
    | cons c rest =>
      obtain ⟨k, v⟩ := c
      rw [cellsFrom_cons] at hn
      have : unlistedByte = v := by simpa [readCell] using h k hn.2.1
      exact absurd this.symm hn.2.2.1
  | cons c rest ih =>
    obtain ⟨k, v⟩ := c
    have hm' := hm
    rw [cellsFrom_cons] at hm
    obtain ⟨_, hk, hv, hr⟩ := hm
    cases n with
    | nil =>
      have : v = unlistedByte := by simpa [readCell] using h k hk
      exact absurd this hv
    | cons d rest' =>
      obtain ⟨k', v'⟩ := d
      have hn' := hn
      rw [cellsFrom_cons] at hn
      obtain ⟨_, hk', hv', hr'⟩ := hn
      have hkk : k = k' := by
        rcases lt_trichotomy k k' with hlt | heq | hgt
        · have := h k hk
          rw [readCell, if_pos rfl,
            readCell_below (low := k') (cellsFrom_cons.2 ⟨le_refl k', hk', hv', hr'⟩) hlt] at this
          exact absurd this hv
        · exact heq
        · have := h k' hk'
          rw [readCell_below (low := k) (cellsFrom_cons.2 ⟨le_refl k, hk, hv, hr⟩) hgt, readCell, if_pos rfl] at this
          exact absurd this.symm hv'
      subst hkk
      have hvv : v = v' := by simpa [readCell] using h k hk
      subst hvv
      rw [ih hr hr' fun a ha => by
        by_cases hak : k = a
        · subst hak
          rw [readCell_below hr (by omega), readCell_below hr' (by omega)]
        · simpa [readCell, hak] using h a ha]

/-! ### Bytes and words -/

theorem writeByte_wf {m : Memory} (hm : m.wf = true) (a : Word) (v : Byte) : (writeByte m a v).wf = true :=
  cellsFrom_writeCell hm (Nat.zero_le _) a.isLt v

theorem writeWord_wf {m : Memory} (hm : m.wf = true) (a v : Word) : (writeWord m a v).wf = true :=
  writeByte_wf (writeByte_wf hm _ _) _ _

theorem readByte_writeByte {m : Memory} (hm : m.wf = true) (a b : Word) (v : Byte) :
    readByte (writeByte m a v) b = if b = a then v else readByte m b := by
  simp only [readByte, writeByte, readCell_writeCell hm, BitVec.toNat_inj]

theorem add_one_ne (a : Word) : a + 1 ≠ a := by bv_omega

theorem readByte_writeWord {m : Memory} (hm : m.wf = true) (a b v : Word) :
    readByte (writeWord m a v) b = if b = a then hiByte v else if b = a + 1 then loByte v else readByte m b := by
  have hne := add_one_ne a
  rw [writeWord, readByte_writeByte (writeByte_wf hm _ _), readByte_writeByte hm]
  by_cases hb : b = a + 1
  · rw [if_pos hb, if_neg (hb ▸ hne), if_pos hb]
  · rw [if_neg hb, if_neg hb]

theorem readWord_writeWord {m : Memory} (hm : m.wf = true) (a v : Word) : readWord (writeWord m a v) a = v := by
  rw [readWord, readByte_writeWord hm, readByte_writeWord hm, if_pos rfl, if_neg (add_one_ne a), if_pos rfl,
    wordOfBytes_hiByte_loByte]

/-- A word write leaves a word that shares no cell with it. -/
theorem readWord_writeWord_of_apart {m : Memory} (hm : m.wf = true) {a b : Word} (v : Word) (h0 : b ≠ a)
    (h1 : b ≠ a + 1) (h2 : b + 1 ≠ a) : readWord (writeWord m a v) b = readWord m b := by
  have h3 : b + 1 ≠ a + 1 := fun h => h0 (by simpa using h)
  rw [readWord, readByte_writeWord hm, readByte_writeWord hm, if_neg h0, if_neg h1, if_neg h2, if_neg h3, readWord]

/-- Canonical memories that read alike everywhere are equal. -/
theorem memory_ext {m n : Memory} (hm : m.wf = true) (hn : n.wf = true) (h : ∀ a, readByte m a = readByte n a) :
    m = n :=
  cellsFrom_ext hm hn fun a ha => by
    have := h (BitVec.ofNat 16 a)
    rwa [readByte, readByte, BitVec.toNat_ofNat, Nat.mod_eq_of_lt (show a < 2 ^ 16 from ha)] at this

/-- Writing a word the value it holds changes nothing. -/
theorem writeWord_readWord {m : Memory} (hm : m.wf = true) (a : Word) : writeWord m a (readWord m a) = m :=
  memory_ext (writeWord_wf hm _ _) hm fun b => by
    rw [readByte_writeWord hm, readWord, hiByte_wordOfBytes, loByte_wordOfBytes]
    split
    · rw [‹b = a›]
    · split
      · rw [‹b = a + 1›]
      · rfl

/-- A word write hides an earlier one at the same address. -/
theorem writeWord_writeWord {m : Memory} (hm : m.wf = true) (a x y : Word) :
    writeWord (writeWord m a x) a y = writeWord m a y :=
  memory_ext (writeWord_wf (writeWord_wf hm _ _) _ _) (writeWord_wf hm _ _) fun b => by
    rw [readByte_writeWord (writeWord_wf hm _ _), readByte_writeWord hm, readByte_writeWord hm]
    split_ifs <;> rfl

/-- Word writes that share no cell may be done in either order. -/
theorem writeWord_comm {m : Memory} (hm : m.wf = true) {a b : Word} (x y : Word) (h0 : b ≠ a) (h1 : b ≠ a + 1)
    (h2 : b + 1 ≠ a) : writeWord (writeWord m a x) b y = writeWord (writeWord m b y) a x :=
  memory_ext (writeWord_wf (writeWord_wf hm _ _) _ _) (writeWord_wf (writeWord_wf hm _ _) _ _) fun c => by
    have h3 : b + 1 ≠ a + 1 := fun h => h0 (by simpa using h)
    rw [readByte_writeWord (writeWord_wf hm _ _), readByte_writeWord hm, readByte_writeWord (writeWord_wf hm _ _),
      readByte_writeWord hm]
    by_cases hca : c = a
    · subst hca
      rw [if_neg (Ne.symm h0), if_neg (Ne.symm h2), if_pos rfl, if_pos rfl]
    · by_cases hca1 : c = a + 1
      · subst hca1
        rw [if_neg (Ne.symm h1), if_neg (Ne.symm h3), if_neg hca, if_pos rfl, if_neg hca, if_pos rfl]
      · rw [if_neg hca, if_neg hca1, if_neg hca, if_neg hca1]

/-! ### The memory of an image -/

theorem memoryOfBytes_cellsFrom (bytes : List Byte) (a : Nat) (h : a + bytes.length ≤ 65536) :
    cellsFrom a (memoryOfBytes a bytes) = true := by
  induction bytes generalizing a with
  | nil => rfl
  | cons v rest ih =>
    have hr := ih (a + 1) (by simp only [List.length_cons] at h; omega)
    unfold memoryOfBytes
    split
    · exact cellsFrom_mono (by omega) hr
    · exact cellsFrom_cons.2 ⟨le_refl a, by simp only [List.length_cons] at h; omega, by assumption, hr⟩

theorem memoryOfBytes_wf (bytes : List Byte) (h : bytes.length ≤ 65536) : (memoryOfBytes 0 bytes).wf = true :=
  memoryOfBytes_cellsFrom bytes 0 (by omega)

theorem readCell_memoryOfBytes (bytes : List Byte) (a k : Nat) (h : a + bytes.length ≤ 65536) :
    readCell (memoryOfBytes a bytes) (a + k) = bytes.getD k unlistedByte := by
  induction bytes generalizing a k with
  | nil => simp [memoryOfBytes, readCell]
  | cons v rest ih =>
    have hlen : a + 1 + rest.length ≤ 65536 := by simp only [List.length_cons] at h; omega
    have hr := memoryOfBytes_cellsFrom rest (a + 1) hlen
    unfold memoryOfBytes
    cases k with
    | zero =>
      split
      · rw [readCell_below hr (by omega)]
        simp [*]
      · simp [readCell]
    | succ k =>
      have hk := ih (a + 1) k hlen
      rw [show a + 1 + k = a + (k + 1) by omega] at hk
      split
      · simpa using hk
      · rw [readCell, if_neg (by omega)]
        simpa using hk

end Sys2Proof.Machine
end

