-- ==== Sys2Proof/Laws/State.lean ====
section
/-! SUPPORT. What each shared operation leaves in each field of the state: one lemma per field per update, true by unfolding,
so that later proofs need not unfold the updates. -/

namespace Sys2Proof.Machine

@[simp] theorem pushD_mem (v : Word) (s : State) : (pushD v s).mem = writeWord s.mem s.sp v := rfl
@[simp] theorem pushD_pc (v : Word) (s : State) : (pushD v s).pc = s.pc := rfl
@[simp] theorem pushD_sp (v : Word) (s : State) : (pushD v s).sp = s.sp - 2 := rfl
@[simp] theorem pushD_rp (v : Word) (s : State) : (pushD v s).rp = s.rp := rfl
@[simp] theorem pushD_status (v : Word) (s : State) : (pushD v s).status = s.status := rfl
@[simp] theorem pushD_budget (v : Word) (s : State) : (pushD v s).budget = s.budget := rfl
@[simp] theorem pushD_pending (v : Word) (s : State) : (pushD v s).pending = s.pending := rfl

@[simp] theorem pushR_mem (v : Word) (s : State) : (pushR v s).mem = writeWord s.mem s.rp v := rfl
@[simp] theorem pushR_pc (v : Word) (s : State) : (pushR v s).pc = s.pc := rfl
@[simp] theorem pushR_sp (v : Word) (s : State) : (pushR v s).sp = s.sp := rfl
@[simp] theorem pushR_rp (v : Word) (s : State) : (pushR v s).rp = s.rp - 2 := rfl
@[simp] theorem pushR_status (v : Word) (s : State) : (pushR v s).status = s.status := rfl
@[simp] theorem pushR_budget (v : Word) (s : State) : (pushR v s).budget = s.budget := rfl
@[simp] theorem pushR_pending (v : Word) (s : State) : (pushR v s).pending = s.pending := rfl

@[simp] theorem popD_value (s : State) : (popD s).1 = readWord s.mem (s.sp + 2) := rfl
@[simp] theorem popD_mem (s : State) : (popD s).2.mem = s.mem := rfl
@[simp] theorem popD_pc (s : State) : (popD s).2.pc = s.pc := rfl
@[simp] theorem popD_sp (s : State) : (popD s).2.sp = s.sp + 2 := rfl
@[simp] theorem popD_rp (s : State) : (popD s).2.rp = s.rp := rfl
@[simp] theorem popD_status (s : State) : (popD s).2.status = s.status := rfl
@[simp] theorem popD_budget (s : State) : (popD s).2.budget = s.budget := rfl
@[simp] theorem popD_pending (s : State) : (popD s).2.pending = s.pending := rfl

@[simp] theorem popR_value (s : State) : (popR s).1 = readWord s.mem (s.rp + 2) := rfl
@[simp] theorem popR_mem (s : State) : (popR s).2.mem = s.mem := rfl
@[simp] theorem popR_pc (s : State) : (popR s).2.pc = s.pc := rfl
@[simp] theorem popR_sp (s : State) : (popR s).2.sp = s.sp := rfl
@[simp] theorem popR_rp (s : State) : (popR s).2.rp = s.rp + 2 := rfl
@[simp] theorem popR_status (s : State) : (popR s).2.status = s.status := rfl
@[simp] theorem popR_budget (s : State) : (popR s).2.budget = s.budget := rfl
@[simp] theorem popR_pending (s : State) : (popR s).2.pending = s.pending := rfl

@[simp] theorem setPc_mem (a : Word) (s : State) : (setPc a s).mem = s.mem := rfl
@[simp] theorem setPc_pc (a : Word) (s : State) : (setPc a s).pc = a := rfl
@[simp] theorem setPc_sp (a : Word) (s : State) : (setPc a s).sp = s.sp := rfl
@[simp] theorem setPc_rp (a : Word) (s : State) : (setPc a s).rp = s.rp := rfl
@[simp] theorem setPc_status (a : Word) (s : State) : (setPc a s).status = s.status := rfl
@[simp] theorem setPc_budget (a : Word) (s : State) : (setPc a s).budget = s.budget := rfl
@[simp] theorem setPc_pending (a : Word) (s : State) : (setPc a s).pending = s.pending := rfl

@[simp] theorem fetch_value (s : State) : (fetch s).1 = readWord s.mem s.pc := rfl
@[simp] theorem fetch_mem (s : State) : (fetch s).2.mem = s.mem := rfl
@[simp] theorem fetch_pc (s : State) : (fetch s).2.pc = s.pc + 2 := rfl
@[simp] theorem fetch_sp (s : State) : (fetch s).2.sp = s.sp := rfl
@[simp] theorem fetch_rp (s : State) : (fetch s).2.rp = s.rp := rfl
@[simp] theorem fetch_status (s : State) : (fetch s).2.status = s.status := rfl
@[simp] theorem fetch_budget (s : State) : (fetch s).2.budget = s.budget := rfl
@[simp] theorem fetch_pending (s : State) : (fetch s).2.pending = s.pending := rfl

@[simp] theorem startBatch_mem (n : Nat) (s : State) : (startBatch n s).mem = s.mem := rfl
@[simp] theorem startBatch_pc (n : Nat) (s : State) : (startBatch n s).pc = readWord s.mem Config.savedPc := rfl
@[simp] theorem startBatch_sp (n : Nat) (s : State) : (startBatch n s).sp = readWord s.mem Config.savedSp := rfl
@[simp] theorem startBatch_rp (n : Nat) (s : State) : (startBatch n s).rp = readWord s.mem Config.savedRp := rfl
@[simp] theorem startBatch_status (n : Nat) (s : State) : (startBatch n s).status = .running := rfl
@[simp] theorem startBatch_budget (n : Nat) (s : State) : (startBatch n s).budget = n := rfl
@[simp] theorem startBatch_pending (n : Nat) (s : State) : (startBatch n s).pending = s.pending := rfl

@[simp] theorem writeBack_mem (s : State) : (writeBack s).mem =
    writeWord (writeWord (writeWord s.mem Config.savedPc s.pc) Config.savedSp s.sp) Config.savedRp s.rp := rfl
@[simp] theorem writeBack_pc (s : State) : (writeBack s).pc = s.pc := rfl
@[simp] theorem writeBack_sp (s : State) : (writeBack s).sp = s.sp := rfl
@[simp] theorem writeBack_rp (s : State) : (writeBack s).rp = s.rp := rfl
@[simp] theorem writeBack_status (s : State) : (writeBack s).status = .idle := rfl
@[simp] theorem writeBack_budget (s : State) : (writeBack s).budget = s.budget := rfl
@[simp] theorem writeBack_pending (s : State) : (writeBack s).pending = s.pending := rfl

@[simp] theorem loadImage_mem (image : List Byte) (s : State) : (loadImage image s).mem = memoryOfBytes 0 image := rfl
@[simp] theorem loadImage_status (image : List Byte) (s : State) : (loadImage image s).status = .idle := rfl
@[simp] theorem loadImage_budget (image : List Byte) (s : State) : (loadImage image s).budget = 0 := rfl
@[simp] theorem loadImage_pending (image : List Byte) (s : State) : (loadImage image s).pending = s.pending := rfl

@[simp] theorem tickFrame_pc (s : State) : (tickFrame s).pc = s.pc := rfl
@[simp] theorem tickFrame_sp (s : State) : (tickFrame s).sp = s.sp := rfl
@[simp] theorem tickFrame_rp (s : State) : (tickFrame s).rp = s.rp := rfl
@[simp] theorem tickFrame_status (s : State) : (tickFrame s).status = s.status := rfl
@[simp] theorem tickFrame_budget (s : State) : (tickFrame s).budget = s.budget := rfl
@[simp] theorem tickFrame_pending (s : State) : (tickFrame s).pending = s.pending := rfl

@[simp] theorem faultedState_mem (f : Fault) (s : State) : (faultedState f s).mem = memoryAfterFault s := rfl
@[simp] theorem faultedState_status (f : Fault) (s : State) : (faultedState f s).status = .faulted f := rfl
@[simp] theorem faultedState_budget (f : Fault) (s : State) : (faultedState f s).budget = 0 := rfl
@[simp] theorem faultedState_pending (f : Fault) (s : State) : (faultedState f s).pending = s.pending := rfl

end Sys2Proof.Machine
end

