-- ==== Sys2Proof/Laws/Ops.lean ====
section
/-! SUPPORT. What the shared operations do, said once: the addresses of stack slots after pops and pushes, push and pop as
inverses, the fetch of an instruction, the operand frames in net effect, the load and the write-back of a batch, and that each
keeps the memory's canonical form. -/

namespace Sys2Proof.Machine

/-! ### Slots of a stack -/

theorem slot_pop_push (a : Word) : a + 2 - 2 = a := by bv_omega
theorem slot_push_pop (a : Word) : a - 2 + 2 = a := by bv_omega
theorem slot_pop_pop (a : Word) : a + 2 + 2 = a + 4 := by bv_omega
theorem slot_four_push (a : Word) : a + 4 - 2 = a + 2 := by bv_omega
theorem slot_four_pop (a : Word) : a + 4 + 2 = a + 6 := by bv_omega
theorem slot_six_push (a : Word) : a + 6 - 2 = a + 4 := by bv_omega

/-! ### Pushes, pops and the operand frames -/

theorem pushD_wf {s : State} (h : s.mem.wf = true) (v : Word) : (pushD v s).mem.wf = true := writeWord_wf h _ _
theorem pushR_wf {s : State} (h : s.mem.wf = true) (v : Word) : (pushR v s).mem.wf = true := writeWord_wf h _ _

/-- A pop after a push gives the word pushed and restores the pointer; the word stays in memory below it (R30). -/
theorem popD_pushD {s : State} (h : s.mem.wf = true) (v : Word) :
    popD (pushD v s) = (v, { s with mem := writeWord s.mem s.sp v }) := by
  simp only [popD, pushD, slot_push_pop, readWord_writeWord h]

theorem popR_pushR {s : State} (h : s.mem.wf = true) (v : Word) :
    popR (pushR v s) = (v, { s with mem := writeWord s.mem s.rp v }) := by
  simp only [popR, pushR, slot_push_pop, readWord_writeWord h]

/-- A push of the word just popped changes nothing (decision D13). -/
theorem pushD_popD {s : State} (h : s.mem.wf = true) : pushD (popD s).1 (popD s).2 = s := by
  simp only [pushD, popD, slot_pop_push, writeWord_readWord h]

/-- The net effect of the one-operand frame (R179). -/
theorem unaryOp_eq (f : Word → Word) (s : State) :
    unaryOp f s = { s with mem := writeWord s.mem (s.sp + 2) (f (readWord s.mem (s.sp + 2))) } := by
  simp only [unaryOp, popD, pushD, slot_pop_push]

/-- The net effect of the two-operand frame (R170). -/
theorem binaryOp_eq (f : Word → Word → Word) (s : State) :
    binaryOp f s =
      { s with
        mem := writeWord s.mem (s.sp + 4) (f (readWord s.mem (s.sp + 4)) (readWord s.mem (s.sp + 2)))
        sp := s.sp + 2 } := by
  simp only [binaryOp, popD, pushD, slot_pop_pop, slot_four_push]

/-- The frame of `div` and `mod`: the fault for a zero divisor, else the two-operand frame (R174). -/
theorem divideOp_eq (f : Word → Word → Word) (s : State) :
    divideOp f s =
      if readWord s.mem (s.sp + 2) = 0x0000 then .fault .divideByZero else .next (binaryOp f s) := rfl

/-- The operands of a store (R142). -/
theorem popAddrValue_eq (s : State) :
    popAddrValue s = (readWord s.mem (s.sp + 2), readWord s.mem (s.sp + 4), { s with sp := s.sp + 4 }) := by
  simp only [popAddrValue, popD, slot_pop_pop]

/-- Both words of a conditional jump are popped in either case (R151). -/
theorem jumpWhen_eq (taken : Bool) (s : State) :
    jumpWhen taken s =
      { s with
        pc := if flagIsTrue (readWord s.mem (s.sp + 4)) = taken then readWord s.mem (s.sp + 2) else s.pc
        sp := s.sp + 4 } := by
  simp only [jumpWhen, popD, slot_pop_pop, setPc]
  split <;> rfl

theorem flagIsTrue_iff (w : Word) : flagIsTrue w = true ↔ w ≠ 0x0000 := decide_eq_true_iff

/-! ### The fetch of an instruction -/

theorem fetchInstr_whole {s : State} {i : Instr} (h : decodeFirst (readWord s.mem s.pc) = .whole i) :
    fetchInstr s = (i, { s with pc := s.pc + 2 }) := by
  simp only [fetchInstr, fetch, h]

theorem fetchInstr_literal {s : State} (h : decodeFirst (readWord s.mem s.pc) = .literalFollows) :
    fetchInstr s = (.pushLiteral (readWord s.mem (s.pc + 2)), { s with pc := s.pc + 4 }) := by
  simp only [fetchInstr, fetch, h, slot_pop_pop]

/-- The fetch changes `pc` only. -/
theorem fetchInstr_state (s : State) : (fetchInstr s).2 = { s with pc := (fetchInstr s).2.pc } := by
  unfold fetchInstr fetch
  simp only
  split <;> rfl

/-! ### Batches, images, the frame tick -/

theorem writeBack_wf {s : State} (h : s.mem.wf = true) : (writeBack s).mem.wf = true :=
  writeWord_wf (writeWord_wf (writeWord_wf h _ _) _ _) _ _

theorem tickFrame_wf {s : State} (h : s.mem.wf = true) : (tickFrame s).mem.wf = true := writeWord_wf h _ _

theorem loadImage_wf {image : List Byte} (h : image.length = 65536) (s : State) : (loadImage image s).mem.wf = true :=
  memoryOfBytes_wf image (by omega)

theorem memoryAfterFault_wf (s : State) : (memoryAfterFault s).wf = true := by
  unfold memoryAfterFault
  apply memoryOfBytes_wf
  rw [List.length_map, List.length_range]

/-- An address of at least 6 is none of the six cells of the save area. -/
theorem ne_saveCell {a : Word} (h : 6 ≤ a.toNat) {k : Nat} (hk : k < 6) : a ≠ BitVec.ofNat 16 k := by
  rintro rfl
  rw [BitVec.toNat_ofNat] at h
  omega

/-- What the write-back leaves in memory (R106). -/
theorem writeBack_reads {s : State} (h : s.mem.wf = true) :
    readWord (writeBack s).mem Config.savedPc = s.pc ∧ readWord (writeBack s).mem Config.savedSp = s.sp ∧
    readWord (writeBack s).mem Config.savedRp = s.rp ∧
    ∀ a : Word, 6 ≤ a.toNat → readByte (writeBack s).mem a = readByte s.mem a := by
  have h1 := writeWord_wf h Config.savedPc s.pc
  have h2 := writeWord_wf h1 Config.savedSp s.sp
  refine ⟨?_, ?_, readWord_writeWord h2 _ _, fun a ha => ?_⟩
  · rw [writeBack_mem, readWord_writeWord_of_apart h2 _ (by decide) (by decide) (by decide),
      readWord_writeWord_of_apart h1 _ (by decide) (by decide) (by decide), readWord_writeWord h]
  · rw [writeBack_mem, readWord_writeWord_of_apart h2 _ (by decide) (by decide) (by decide), readWord_writeWord h1]
  · have h4 : a ≠ Config.savedRp := ne_saveCell ha (k := 4) (by omega)
    have h5 : a ≠ Config.savedRp + 1 := ne_saveCell ha (k := 5) (by omega)
    have h2' : a ≠ Config.savedSp := ne_saveCell ha (k := 2) (by omega)
    have h3 : a ≠ Config.savedSp + 1 := ne_saveCell ha (k := 3) (by omega)
    have h0 : a ≠ Config.savedPc := ne_saveCell ha (k := 0) (by omega)
    have h1' : a ≠ Config.savedPc + 1 := ne_saveCell ha (k := 1) (by omega)
    rw [writeBack_mem, readByte_writeWord h2, if_neg h4, if_neg h5, readByte_writeWord h1, if_neg h2', if_neg h3,
      readByte_writeWord h, if_neg h0, if_neg h1']

end Sys2Proof.Machine
end

