-- ==== Sys2Proof/Laws/PerInstr.lean ====
section
/-! SUPPORT. Facts made per instruction. Family `FirstWord`: the first word of a well-formed instruction decodes to it, or it
is `push-literal`, whose literal is its second word. Family `Length`: an instruction's encoding is as long as R83 says. -/

namespace Sys2Proof.Laws

/-- The first word of `i` decodes to `i`; or `i` is a push-literal, and its literal is the one word more. -/
def FirstWord.Statement (i : Instr) : Prop :=
  i.wellFormed = true → ∃ w rest, encodeWords i = w :: rest ∧
    ((decodeFirst w = .whole i ∧ rest = []) ∨ ∃ v, i = .pushLiteral v ∧ decodeFirst w = .literalFollows ∧ rest = [v])

/-- The encoding of `i` is `instrLength i` bytes long. -/
def Length.Statement (i : Instr) : Prop := (encode i).length = instrLength i

theorem FirstWord.nop : FirstWord.Statement .nop := fun _ => ⟨_, _, rfl, .inl ⟨rfl, rfl⟩⟩
theorem FirstWord.pushLiteral (v : Word) : FirstWord.Statement (.pushLiteral v) := fun _ => ⟨_, _, rfl, .inr ⟨v, rfl, rfl, rfl⟩⟩
theorem FirstWord.drop : FirstWord.Statement .drop := fun _ => ⟨_, _, rfl, .inl ⟨rfl, rfl⟩⟩
theorem FirstWord.dup : FirstWord.Statement .dup := fun _ => ⟨_, _, rfl, .inl ⟨rfl, rfl⟩⟩
theorem FirstWord.swap : FirstWord.Statement .swap := fun _ => ⟨_, _, rfl, .inl ⟨rfl, rfl⟩⟩
theorem FirstWord.overWord : FirstWord.Statement .overWord := fun _ => ⟨_, _, rfl, .inl ⟨rfl, rfl⟩⟩
theorem FirstWord.rot : FirstWord.Statement .rot := fun _ => ⟨_, _, rfl, .inl ⟨rfl, rfl⟩⟩
theorem FirstWord.toReturn : FirstWord.Statement .toReturn := fun _ => ⟨_, _, rfl, .inl ⟨rfl, rfl⟩⟩
theorem FirstWord.fromReturn : FirstWord.Statement .fromReturn := fun _ => ⟨_, _, rfl, .inl ⟨rfl, rfl⟩⟩
theorem FirstWord.loadByte : FirstWord.Statement .loadByte := fun _ => ⟨_, _, rfl, .inl ⟨rfl, rfl⟩⟩
theorem FirstWord.loadWord : FirstWord.Statement .loadWord := fun _ => ⟨_, _, rfl, .inl ⟨rfl, rfl⟩⟩
theorem FirstWord.storeByte : FirstWord.Statement .storeByte := fun _ => ⟨_, _, rfl, .inl ⟨rfl, rfl⟩⟩
theorem FirstWord.storeWord : FirstWord.Statement .storeWord := fun _ => ⟨_, _, rfl, .inl ⟨rfl, rfl⟩⟩
theorem FirstWord.jump : FirstWord.Statement .jump := fun _ => ⟨_, _, rfl, .inl ⟨rfl, rfl⟩⟩
theorem FirstWord.jumpIfZero : FirstWord.Statement .jumpIfZero := fun _ => ⟨_, _, rfl, .inl ⟨rfl, rfl⟩⟩
theorem FirstWord.jumpIfNonzero : FirstWord.Statement .jumpIfNonzero := fun _ => ⟨_, _, rfl, .inl ⟨rfl, rfl⟩⟩
theorem FirstWord.add : FirstWord.Statement .add := fun _ => ⟨_, _, rfl, .inl ⟨rfl, rfl⟩⟩
theorem FirstWord.sub : FirstWord.Statement .sub := fun _ => ⟨_, _, rfl, .inl ⟨rfl, rfl⟩⟩
theorem FirstWord.mul : FirstWord.Statement .mul := fun _ => ⟨_, _, rfl, .inl ⟨rfl, rfl⟩⟩
theorem FirstWord.div : FirstWord.Statement .div := fun _ => ⟨_, _, rfl, .inl ⟨rfl, rfl⟩⟩
theorem FirstWord.mod : FirstWord.Statement .mod := fun _ => ⟨_, _, rfl, .inl ⟨rfl, rfl⟩⟩
theorem FirstWord.and : FirstWord.Statement .and := fun _ => ⟨_, _, rfl, .inl ⟨rfl, rfl⟩⟩
theorem FirstWord.or : FirstWord.Statement .or := fun _ => ⟨_, _, rfl, .inl ⟨rfl, rfl⟩⟩
theorem FirstWord.xor : FirstWord.Statement .xor := fun _ => ⟨_, _, rfl, .inl ⟨rfl, rfl⟩⟩
theorem FirstWord.not : FirstWord.Statement .not := fun _ => ⟨_, _, rfl, .inl ⟨rfl, rfl⟩⟩
theorem FirstWord.shl : FirstWord.Statement .shl := fun _ => ⟨_, _, rfl, .inl ⟨rfl, rfl⟩⟩
theorem FirstWord.shr : FirstWord.Statement .shr := fun _ => ⟨_, _, rfl, .inl ⟨rfl, rfl⟩⟩
theorem FirstWord.eq : FirstWord.Statement .eq := fun _ => ⟨_, _, rfl, .inl ⟨rfl, rfl⟩⟩
theorem FirstWord.lt : FirstWord.Statement .lt := fun _ => ⟨_, _, rfl, .inl ⟨rfl, rfl⟩⟩
theorem FirstWord.le : FirstWord.Statement .le := fun _ => ⟨_, _, rfl, .inl ⟨rfl, rfl⟩⟩
theorem FirstWord.callIndirect : FirstWord.Statement .callIndirect := fun _ => ⟨_, _, rfl, .inl ⟨rfl, rfl⟩⟩
theorem FirstWord.ret : FirstWord.Statement .ret := fun _ => ⟨_, _, rfl, .inl ⟨rfl, rfl⟩⟩
theorem FirstWord.call (v : Word) : FirstWord.Statement (.call v) := 
  fun h => ⟨_, _, rfl, .inl ⟨decodeFirst_call (by simpa [Instr.wellFormed] using h), rfl⟩⟩

theorem Length.nop : Length.Statement .nop := rfl
theorem Length.pushLiteral (v : Word) : Length.Statement (.pushLiteral v) := rfl
theorem Length.drop : Length.Statement .drop := rfl
theorem Length.dup : Length.Statement .dup := rfl
theorem Length.swap : Length.Statement .swap := rfl
theorem Length.overWord : Length.Statement .overWord := rfl
theorem Length.rot : Length.Statement .rot := rfl
theorem Length.toReturn : Length.Statement .toReturn := rfl
theorem Length.fromReturn : Length.Statement .fromReturn := rfl
theorem Length.loadByte : Length.Statement .loadByte := rfl
theorem Length.loadWord : Length.Statement .loadWord := rfl
theorem Length.storeByte : Length.Statement .storeByte := rfl
theorem Length.storeWord : Length.Statement .storeWord := rfl
theorem Length.jump : Length.Statement .jump := rfl
theorem Length.jumpIfZero : Length.Statement .jumpIfZero := rfl
theorem Length.jumpIfNonzero : Length.Statement .jumpIfNonzero := rfl
theorem Length.add : Length.Statement .add := rfl
theorem Length.sub : Length.Statement .sub := rfl
theorem Length.mul : Length.Statement .mul := rfl
theorem Length.div : Length.Statement .div := rfl
theorem Length.mod : Length.Statement .mod := rfl
theorem Length.and : Length.Statement .and := rfl
theorem Length.or : Length.Statement .or := rfl
theorem Length.xor : Length.Statement .xor := rfl
theorem Length.not : Length.Statement .not := rfl
theorem Length.shl : Length.Statement .shl := rfl
theorem Length.shr : Length.Statement .shr := rfl
theorem Length.eq : Length.Statement .eq := rfl
theorem Length.lt : Length.Statement .lt := rfl
theorem Length.le : Length.Statement .le := rfl
theorem Length.callIndirect : Length.Statement .callIndirect := rfl
theorem Length.ret : Length.Statement .ret := rfl
theorem Length.call (v : Word) : Length.Statement (.call v) := rfl

end Sys2Proof.Laws
end

