-- ==== Sys2Proof/Laws/Step.lean ====
section
/-! SUPPORT. What one step of the machine is in each status, and one step of a run. -/

namespace Sys2Proof.Machine

/-- A step that runs an instruction (R105). -/
theorem step_of_ready {s : State} (h : Ready s) : step s = instrStep { s with budget := s.budget - 1 } := by
  obtain ⟨hs, hb, hd⟩ := h
  obtain ⟨k, hk⟩ : ∃ k, s.budget = k + 1 := ⟨s.budget - 1, by omega⟩
  simp only [step, hs, hd, batchStep, hk, Nat.add_sub_cancel]

/-- The step that ends a batch (R106). -/
theorem step_of_batchDone {s : State} (hs : s.status = .running) (hb : s.budget = 0) (hd : dueLoad s = none) :
    step s = .next (writeBack s) := by
  simp only [step, hs, hd, batchStep, hb]

/-- The step that an image load takes in the midst of a batch (R230). -/
theorem step_of_dueLoad {s : State} {image : List Byte} {rest : List HostAction} (hs : s.status = .running)
    (hd : dueLoad s = some (image, rest)) : step s = hostLoad image { s with pending := rest } := by
  simp only [step, hs, hd]

/-- What a step of a Running core is: an instruction, the write-back, or an image load due in the midst of the batch. -/
theorem running_cases {s : State} (hs : s.status = .running) :
    Ready s ∨ (s.budget = 0 ∧ dueLoad s = none) ∨ ∃ image rest, dueLoad s = some (image, rest) := by
  cases hd : dueLoad s with
  | some p => exact .inr (.inr ⟨p.1, p.2, rfl⟩)
  | none =>
    by_cases hb : 0 < s.budget
    · exact .inl ⟨hs, hb, hd⟩
    · exact .inr (.inl ⟨by omega, rfl⟩)

/-- A load is due exactly when it heads the queue with the steps left that it names. -/
theorem dueLoad_eq_some {s : State} {image : List Byte} {rest : List HostAction} :
    dueLoad s = some (image, rest) ↔ s.pending = .loadImageDuring s.budget image :: rest := by
  unfold dueLoad
  constructor
  · intro h
    split at h
    · split at h <;> simp_all
    · cases h
  · intro h
    rw [h]
    simp only [if_true]

/-- An image load gives reset from the image, and nothing else (R230, R214). -/
theorem hostLoad_next {image : List Byte} {s t : State} (h : hostLoad image s = .next t) :
    image.length = Config.memorySize ∧ t = loadImage image s := by
  unfold hostLoad at h
  split at h
  · cases h; exact ⟨by assumption, rfl⟩
  · cases h

theorem step_of_unloaded {s : State} (hs : s.status = .unloaded) : step s = hostStep hostActionUnloaded s := by
  simp only [step, hs]

theorem step_of_idle {s : State} (hs : s.status = .idle) : step s = hostStep hostActionIdle s := by
  simp only [step, hs]

theorem step_of_faulted {s : State} {f : Fault} (hs : s.status = .faulted f) : step s = hostStep hostActionFaulted s := by
  simp only [step, hs]

/-- All a step of a Faulted core can do: stay, with nothing pending, or load an image of the right length (R204, R230). -/
theorem faulted_next_cases {s t : State} {f : Fault} (hs : s.status = .faulted f) (h : step s = .next t) :
    (s.pending = [] ∧ t = s) ∨ ∃ act image rest, s.pending = act :: rest ∧ loadedImage act = some image ∧
      image.length = Config.memorySize ∧ t = { loadImage image s with pending := rest } := by
  rw [step_of_faulted hs, hostStep] at h
  split at h
  · cases h; exact .inl ⟨by assumption, rfl⟩
  · rename_i act rest hp
    cases act <;> simp only [hostActionFaulted, reduceCtorEq] at h
    all_goals
      obtain ⟨hl, rfl⟩ := hostLoad_next h
      exact .inr ⟨_, _, rest, hp, rfl, hl, rfl⟩

/-- The same before any image was loaded (R214). -/
theorem unloaded_next_cases {s t : State} (hs : s.status = .unloaded) (h : step s = .next t) :
    (s.pending = [] ∧ t = s) ∨ ∃ act image rest, s.pending = act :: rest ∧ loadedImage act = some image ∧
      image.length = Config.memorySize ∧ t = { loadImage image s with pending := rest } := by
  rw [step_of_unloaded hs, hostStep] at h
  split at h
  · cases h; exact .inl ⟨by assumption, rfl⟩
  · rename_i act rest hp
    cases act <;> simp only [hostActionUnloaded, reduceCtorEq] at h
    all_goals
      obtain ⟨hl, rfl⟩ := hostLoad_next h
      exact .inr ⟨_, _, rest, hp, rfl, hl, rfl⟩

/-- A run of any machine goes on from the next state of its first step. -/
theorem run_of_next {M : Host.Core} {s t : M.State} (k : Nat) (h : M.step s = .next t) : M.run (k + 1) s = M.run k t := by
  simp only [Host.Core.run]
  rw [h]

theorem run_of_fault {M : Host.Core} {s : M.State} {f : M.Fault} (k : Nat) (h : M.step s = .fault f) :
    M.run (k + 1) s = .fault f := by
  simp only [Host.Core.run]
  rw [h]

theorem run_of_refused {M : Host.Core} {s : M.State} {r : M.Refusal} (k : Nat) (h : M.step s = .refused r) :
    M.run (k + 1) s = .refused r := by
  simp only [Host.Core.run]
  rw [h]

/-- One step more of a run of this machine. -/
theorem core_run_next {s t : State} (k : Nat) (h : step s = .next t) :
    Host.Core.run Sys2Proof.core (k + 1) s = Host.Core.run Sys2Proof.core k t := run_of_next k h

theorem core_run_fault {s : State} {f : Fault} (k : Nat) (h : step s = .fault f) :
    Host.Core.run Sys2Proof.core (k + 1) s = .fault f := run_of_fault k h

theorem core_run_refused {s : State} {r : Refusal} (k : Nat) (h : step s = .refused r) :
    Host.Core.run Sys2Proof.core (k + 1) s = .refused r := run_of_refused k h

theorem core_run_zero (s : State) : Host.Core.run Sys2Proof.core 0 s = .next s := rfl

end Sys2Proof.Machine
end

