-- ==== Sys2Proof/Tests/Slice0.lean ====
section
/-! SUPPORT. Tests, each an expected result of the spec (95_test_vectors.md, the vector's name in the comment, or the rule), and
for every statement with hypotheses a witness: a concrete state and operands that meet them together. -/

namespace Sys2Proof.Tests

open Sys2Proof Sys2Proof.Machine

/-- A memory with the given words at the given addresses and zeros elsewhere. -/
def memWith (ws : List (Word × Word)) : Memory := ws.foldl (fun m w => writeWord m w.1 w.2) []

/-- A core in a batch with two steps left. -/
def running (pc sp rp : Word) (ws : List (Word × Word)) : State :=
  { State.reset with mem := memWith ws, pc := pc, sp := sp, rp := rp, status := .running, budget := 2 }

/-- An Idle core with a save area, some words, and what the host is going to do. -/
def idle (pc sp rp : Word) (ws : List (Word × Word)) (pending : List HostAction) : State :=
  { State.reset with mem := memWith ([(0, pc), (2, sp), (4, rp)] ++ ws), pending := pending }

/-- What a test looks at in a next state: `pc`, `sp`, `rp` and the words at some addresses. -/
def look (o : Host.Outcome State Fault Refusal) (at_ : List Word) : Option (Word × Word × Word × List Word) :=
  match o with
  | .next t => some (t.pc, t.sp, t.rp, at_.map (readWord t.mem))
  | _ => none

/-- A one-operand instruction word at 0x0100, with the operand on top (setup of part 2.5). -/
def unary (word a : Word) : State := running 0x0100 0xFFFA 0xFE00 [(0x0100, word), (0xFFFC, a)]

/-- A two-operand instruction word at 0x0100 (setup of part 2.5): `a` below the top, `b` on top. -/
def binary (word a b : Word) : State := running 0x0100 0xFFF8 0xFE00 [(0x0100, word), (0xFFFC, a), (0xFFFA, b)]

/-- The result of a two-operand instruction, with the pointers of the setup's "after" as the spec has them. -/
def resultIs (word a b r : Word) : Prop :=
  look (step (binary word a b)) [0xFFFC, 0xFFFA] = some (0x0102, 0xFFFA, 0xFE00, [r, b])

/-! ### Well-formed terms -/

theorem test_wellFormed_call_below_20_refused : (Instr.call 0x001F).wellFormed = false := by decide
theorem test_wellFormed_call_20 : (Instr.call 0x0020).wellFormed = true := by decide
theorem test_wellFormed_operand_range :
    (AsmOperand.num 65535).wellFormed = true ∧ (AsmOperand.num 65536).wellFormed = false := by decide
theorem test_wellFormed_plain_needs_no_operand :
    (AsmStatement.plain (.pushLiteral 5)).wellFormed = false ∧ (AsmStatement.plain (.call 0x0050)).wellFormed = false ∧
    (AsmStatement.plain .storeWord).wellFormed = true := by decide
theorem test_wellFormed_operands_out_of_range_refused :
    (AsmStatement.pushLiteral (.num 65536)).wellFormed = false ∧ (AsmStatement.push (.num 65536)).wellFormed = false ∧
    (AsmStatement.word (.num 65536)).wellFormed = false ∧ (AsmStatement.org 65536).wellFormed = false ∧
    (AsmStatement.withOperand .storeWord (.num 65536)).wellFormed = false ∧
    (AsmStatement.call (.num 65536)).wellFormed = false := by decide
theorem test_wellFormed_call_statement_below_20_refused :
    (AsmStatement.call (.num 0x1F)).wellFormed = false ∧ (AsmStatement.call (.num 0x20)).wellFormed = true := by decide
theorem test_wellFormed_operand_form_needs_a_popping_primitive :
    (AsmStatement.withOperand .nop (.num 5)).wellFormed = false ∧
    (AsmStatement.withOperand .ret (.num 5)).wellFormed = false ∧
    (AsmStatement.withOperand .add (.num 5)).wellFormed = true := by decide

/-! ### Decoding: words written out from R81, R85 and R87 -/

theorem test_decode_stack :
    decode [0b00000000#8, 0b00000000#8] = .ok (.nop, []) ∧
    decode [0b00000000#8, 0b00000001#8, 0b10100001#8, 0b10110010#8] = .ok (.pushLiteral 0xA1B2, []) ∧
    decode [0b00000000#8, 0b00000010#8] = .ok (.drop, []) ∧
    decode [0b00000000#8, 0b00000011#8] = .ok (.dup, []) ∧
    decode [0b00000000#8, 0b00000100#8] = .ok (.swap, []) ∧
    decode [0b00000000#8, 0b00000101#8] = .ok (.overWord, []) ∧
    decode [0b00000000#8, 0b00000110#8] = .ok (.rot, []) ∧
    decode [0b00000000#8, 0b00000111#8] = .ok (.toReturn, []) ∧
    decode [0b00000000#8, 0b00001000#8] = .ok (.fromReturn, []) := ⟨rfl, rfl, rfl, rfl, rfl, rfl, rfl, rfl, rfl⟩

theorem test_decode_memory :
    decode [0b00000000#8, 0b00001001#8] = .ok (.loadByte, []) ∧
    decode [0b00000000#8, 0b00001010#8] = .ok (.loadWord, []) ∧
    decode [0b00000000#8, 0b00001011#8] = .ok (.storeByte, []) ∧
    decode [0b00000000#8, 0b00001100#8] = .ok (.storeWord, []) := ⟨rfl, rfl, rfl, rfl⟩

theorem test_decode_control :
    decode [0b00000000#8, 0b00001101#8] = .ok (.jump, []) ∧
    decode [0b00000000#8, 0b00001110#8] = .ok (.jumpIfZero, []) ∧
    decode [0b00000000#8, 0b00001111#8] = .ok (.jumpIfNonzero, []) ∧
    decode [0b00000000#8, 0b00011110#8] = .ok (.callIndirect, []) ∧
    decode [0b00000000#8, 0b00011111#8] = .ok (.ret, []) := ⟨rfl, rfl, rfl, rfl, rfl⟩

theorem test_decode_arith :
    decode [0b00000000#8, 0b00010000#8] = .ok (.add, []) ∧
    decode [0b00000000#8, 0b00010001#8] = .ok (.sub, []) ∧
    decode [0b00000000#8, 0b00010010#8] = .ok (.mul, []) ∧
    decode [0b00000000#8, 0b00010011#8] = .ok (.div, []) ∧
    decode [0b00000000#8, 0b00010100#8] = .ok (.mod, []) ∧
    decode [0b00000000#8, 0b00010101#8] = .ok (.and, []) ∧
    decode [0b00000000#8, 0b00010110#8] = .ok (.or, []) ∧
    decode [0b00000000#8, 0b00010111#8] = .ok (.xor, []) ∧
    decode [0b00000000#8, 0b00011000#8] = .ok (.not, []) ∧
    decode [0b00000000#8, 0b00011001#8] = .ok (.shl, []) ∧
    decode [0b00000000#8, 0b00011010#8] = .ok (.shr, []) := ⟨rfl, rfl, rfl, rfl, rfl, rfl, rfl, rfl, rfl, rfl, rfl⟩

theorem test_decode_compare :
    decode [0b00000000#8, 0b00011011#8] = .ok (.eq, []) ∧
    decode [0b00000000#8, 0b00011100#8] = .ok (.lt, []) ∧
    decode [0b00000000#8, 0b00011101#8] = .ok (.le, []) := ⟨rfl, rfl, rfl⟩

/-- The lowest call, the highest, one that ends in the bits of `dup` (R82: 0x0103), and bytes that follow are left over. -/
theorem test_decode_call :
    decode [0b00000000#8, 0b00100000#8] = .ok (.call 0x0020, []) ∧
    decode [0b11111111#8, 0b11111111#8] = .ok (.call 0xFFFF, []) ∧
    decode [0b00000001#8, 0b00000011#8, 0b10101011#8] = .ok (.call 0x0103, [0xAB]) := ⟨rfl, rfl, rfl⟩

theorem test_decode_short_bytes :
    decode [] = .error .noOpcodeWord ∧ decode [0x00] = .error .noOpcodeWord ∧
    decode [0x00, 0x01] = .error .noLiteralWord ∧ decode [0x00, 0x01, 0x12] = .error .noLiteralWord := ⟨rfl, rfl, rfl, rfl⟩

/-- A word of each of the eleven call rows of R87. -/
theorem test_decode_call_rows :
    ([0x8000, 0x7FFF, 0x2000, 0x1FFF, 0x0800, 0x07FF, 0x0200, 0x01FF, 0x0080, 0x007F, 0x0020] : List Nat).map
      (fun w => decodeTableWord 16 w) =
    ([0x8000, 0x7FFF, 0x2000, 0x1FFF, 0x0800, 0x07FF, 0x0200, 0x01FF, 0x0080, 0x007F, 0x0020] : List Nat).map
      (fun w => some (.call (u16 w))) := by decide

theorem test_decodeTableWord :
    decodeTableWord 32 0x12340001 = some (.pushLiteral 0x1234) ∧ decodeTableWord 16 0x0001 = some (.pushLiteral 0x0000) ∧
    decodeTableWord 16 0x0013 = some .div := by decide

theorem test_encode_push_literal : encode (.pushLiteral 0x1234) = [0x00, 0x01, 0x12, 0x34] := by decide

/-- The word of R87's first row, and one that only the last covers. -/
theorem test_opcodeRows :
    opcodeRows.filter (rowMatches 0x8001) = [⟨"call", 0x8000, 0x8000⟩] ∧
    opcodeRows.filter (rowMatches 0x003F) = [⟨"call", 0xFFE0, 0x0020⟩] ∧
    opcodeRows.filter (rowMatches 0x001F) = [⟨"return", 0xFFFF, 0x001F⟩] := by decide

/-- The listing of P1, `store-word 0x0400` in the operand form of R89: the sixteen bytes at 0x0008. -/
theorem test_assemble_P1 :
    assemble [.org 0x0008, .push (.num 5), .push (.num 3), .plain .add, .withOperand .storeWord (.num 0x0400)] =
      some [(0x0008, 0x0001), (0x000A, 0x0005), (0x000C, 0x0001), (0x000E, 0x0003), (0x0010, 0x0010), (0x0012, 0x0001),
        (0x0014, 0x0400), (0x0016, 0x000C)] := by decide

/-- The halt idiom of P3 at 0x001C, and a call by label across an `.org`; an undefined label has no address. -/
theorem test_assemble_labels :
    assemble [.org 0x001C, .label "halt", .pushLiteral (.label "halt"), .plain .jump, .call (.label "sq1"), .org 0x0080,
      .label "sq1", .plain .dup, .word (.num 7)] =
      some [(0x001C, 0x0001), (0x001E, 0x001C), (0x0020, 0x000D), (0x0022, 0x0080), (0x0080, 0x0003), (0x0082, 0x0007)] ∧
    assemble [.call (.label "nowhere")] = none := by decide

/-- A label just before `.org` is the running address (log entry 21, the model's choice). -/
theorem test_assemble_label_before_org :
    assemble [.plain .add, .label "x", .org 0x0080, .word (.label "x")] = some [(0x0000, 0x0010), (0x0080, 0x0002)] := by decide

/-- No `.org`: the first word is at 0x0000 (log entry 19, the model's choice). -/
theorem test_assemble_without_org : assemble [.plain .add] = some [(0x0000, 0x0010)] := by decide

/-- R230 in any status: a load due with one step left is not taken with two left, and is taken with one left, as reset; an image
of the wrong length is refused, and the batch goes on. -/
theorem test_load_during_batch :
    (dueLoad { unary 3 7 with pending := [.loadImageDuring 1 []] } = none) ∧
    dueLoad { unary 3 7 with budget := 1, pending := [.loadImageDuring 1 []] } = some ([], []) ∧
    step { unary 3 7 with budget := 1, pending := [.loadImageDuring 1 []] } = .refused .imageLength ∧
    proceed { unary 3 7 with budget := 1, pending := [.loadImageDuring 1 []] } = { unary 3 7 with budget := 1 } ∧
    step { unary 3 7 with budget := 1, pending := [.loadImageDuring 1 (List.replicate 65536 0)] } =
      .next (loadImage (List.replicate 65536 0) { unary 3 7 with pending := [] }) := by
  refine ⟨by decide, by decide, rfl, rfl, ?_⟩
  rw [step_of_dueLoad rfl (dueLoad_eq_some.mpr rfl), hostLoad, if_pos List.length_replicate]
  rfl

/-- R6, D2: the default budget of a frame. -/
theorem test_default_budget : frameActions .beforeRun = [.frameTick, .run 65536] := by decide

/-! ### Running an instruction placed at the fetch, from reset -/

theorem test_withFetchWord_push_literal :
    look (step (State.reset.withFetchWord 32 0x12340001)) [0x0000] = some (0x0004, 0xFFFE, 0x0000, [0x1234]) := by decide
theorem test_withFetchWord_call :
    look (step (State.reset.withFetchWord 16 0x0050)) [0x0000] = some (0x0050, 0x0000, 0xFFFE, [0x0002]) := by decide

/-! ### One step (part 2 of 95_test_vectors.md) -/

/-- T1 -/
theorem test_nop : look (step (running 0x0100 0xFFFA 0xFE00 [(0xFFFC, 7)])) [0xFFFC] = some (0x0102, 0xFFFA, 0xFE00, [7]) := by
  decide
/-- T3: the literal is fetched across the top of memory. -/
theorem test_push_literal_across_top :
    look (step (running 0xFFFE 0x8000 0xFE00 [(0xFFFE, 0x0001), (0x0000, 0xBEEF)])) [0x8000] =
      some (0x0002, 0x7FFE, 0xFE00, [0xBEEF]) := by decide
/-- T6: a push at 0xFFFF wraps inside the word. -/
theorem test_push_literal_wraps :
    look (step (running 0x0100 0xFFFF 0xFE00 [(0x0100, 0x0001), (0x0102, 0xA1B2)])) [0xFFFF] =
      some (0x0104, 0xFFFD, 0xFE00, [0xA1B2]) := by decide
/-- T8 -/
theorem test_drop_wraps : look (step (running 0x0100 0xFFFE 0xFE00 [(0x0100, 2)])) [] = some (0x0102, 0x0000, 0xFE00, []) := by
  decide
/-- T16: the top word spans the wrap. -/
theorem test_dup_through_wrap :
    look (step (running 0x0100 0xFFFD 0xFE00 [(0x0100, 3), (0xFFFF, 0x1234)])) [0xFFFD, 0xFFFF] =
      some (0x0102, 0xFFFB, 0xFE00, [0x1234, 0x1234]) := by decide
/-- T10 -/
theorem test_swap :
    look (step (binary 4 1 2)) [0xFFFC, 0xFFFA] = some (0x0102, 0xFFF8, 0xFE00, [2, 1]) := by decide
/-- T11 -/
theorem test_over :
    look (step (binary 5 1 2)) [0xFFFC, 0xFFFA, 0xFFF8] = some (0x0102, 0xFFF6, 0xFE00, [1, 2, 1]) := by decide
/-- T12 -/
theorem test_rot :
    look (step (running 0x0100 0xFFF6 0xFE00 [(0x0100, 6), (0xFFFC, 1), (0xFFFA, 2), (0xFFF8, 3)])) [0xFFFC, 0xFFFA, 0xFFF8] =
      some (0x0102, 0xFFF6, 0xFE00, [2, 3, 1]) := by decide
/-- T13 -/
theorem test_to_return : look (step (unary 7 4)) [0xFE00] = some (0x0102, 0xFFFC, 0xFDFE, [4]) := by decide
/-- T14 -/
theorem test_from_return :
    look (step (running 0x0100 0xFFFC 0xFDFE [(0x0100, 8), (0xFE00, 4)])) [0xFFFC] = some (0x0102, 0xFFFA, 0xFE00, [4]) := by
  decide
/-- M2: no sign extension. -/
theorem test_load_byte_zero_extends :
    look (step (running 0x0100 0xFFFA 0xFE00 [(0x0100, 9), (0xFFFC, 0x0400), (0x0400, 0xFF00)])) [0xFFFC] =
      some (0x0102, 0xFFFA, 0xFE00, [0x00FF]) := by decide
/-- M3: the byte is read before the result overwrites it. -/
theorem test_load_byte_of_own_cell : look (step (unary 9 0xFFFC)) [0xFFFC] = some (0x0102, 0xFFFA, 0xFE00, [0x00FF]) := by
  decide
/-- M5: the word read wraps. -/
theorem test_load_word_wraps :
    look (step (running 0x0100 0xFFFA 0xFE00 [(0x0100, 0xA), (0xFFFF, 0xABCD), (0xFFFC, 0xFFFF)])) [0xFFFC] =
      some (0x0102, 0xFFFA, 0xFE00, [0xABCD]) := by decide
/-- M6: an odd address. -/
theorem test_load_word_odd :
    look (step (running 0x0100 0xFFFA 0xFE00 [(0x0100, 0xA), (0xFFFC, 0x0401), (0x0400, 0x1234), (0x0402, 0x5678)])) [0xFFFC] =
      some (0x0102, 0xFFFA, 0xFE00, [0x3456]) := by decide
/-- M7: the low byte only. -/
theorem test_store_byte :
    look (step (running 0x0100 0xFFF8 0xFE00 [(0x0100, 0xB), (0xFFFC, 0x12AB), (0xFFFA, 0x0400), (0x0400, 0x5566)])) [0x0400] =
      some (0x0102, 0xFFFC, 0xFE00, [0xAB66]) := by decide
/-- M9: the word write wraps. -/
theorem test_store_word_wraps :
    look (step (binary 0xC 0xA1B2 0xFFFF)) [0xFFFF] = some (0x0102, 0xFFFC, 0xFE00, [0xA1B2]) := by decide
/-- M10: an odd address; the neighbours keep their bytes. -/
theorem test_store_word_odd :
    look (step (running 0x0100 0xFFF8 0xFE00
      [(0x0100, 0xC), (0xFFFC, 0xA1B2), (0xFFFA, 0x0401), (0x0400, 0x1111), (0x0402, 0x2222)])) [0x0400, 0x0402] =
      some (0x0102, 0xFFFC, 0xFE00, [0x11A1, 0xB222]) := by decide
/-- J1 -/
theorem test_jump :
    look (step (running 0x0020 0xFFFA 0xFE00 [(0x0020, 0xD), (0xFFFC, 0x0040)])) [] = some (0x0040, 0xFFFC, 0xFE00, []) := by decide
/-- J2 -/
theorem test_jump_if_zero_taken : look (step (binary 0xE 0x0000 0x0040)) [] = some (0x0040, 0xFFFC, 0xFE00, []) := by decide
/-- J3: both words are popped all the same. -/
theorem test_jump_if_zero_not_taken : look (step (binary 0xE 0x0001 0x0040)) [] = some (0x0102, 0xFFFC, 0xFE00, []) := by decide
/-- J5 -/
theorem test_jump_if_nonzero_taken : look (step (binary 0xF 0x0009 0x0018)) [] = some (0x0018, 0xFFFC, 0xFE00, []) := by decide
/-- J6 -/
theorem test_jump_if_nonzero_not_taken : look (step (binary 0xF 0x0000 0x0018)) [] = some (0x0102, 0xFFFC, 0xFE00, []) := by
  decide
/-- J8 -/
theorem test_call_indirect :
    look (step (running 0x0030 0xFFFA 0xFE00 [(0x0030, 0x1E), (0xFFFC, 0x0080)])) [0xFE00] =
      some (0x0080, 0xFFFC, 0xFDFE, [0x0032]) := by decide
/-- J18: the stacks overlap, and the return address overwrites the target before it is read. -/
theorem test_call_indirect_overlap :
    look (step (running 0x0030 0x7FFE 0x8000 [(0x0030, 0x1E), (0x8000, 0x0080)])) [0x8000] =
      some (0x0032, 0x8000, 0x7FFE, [0x0032]) := by decide
/-- J10 -/
theorem test_return :
    look (step (running 0x008A 0xFFFC 0xFDFE [(0x008A, 0x1F), (0xFE00, 0x0016)])) [] = some (0x0016, 0xFFFC, 0xFE00, []) := by
  decide
/-- S5, J11 -/
theorem test_call :
    look (step (running 0x0008 0xFFFE 0xFFFC [(0x0008, 0x0050)])) [0xFFFC] = some (0x0050, 0xFFFE, 0xFFFA, [0x000A]) := by decide
/-- J17: the call word spans the wrap. -/
theorem test_call_word_spans_wrap :
    look (step (running 0xFFFF 0x8000 0xFE00 [(0xFFFF, 0x4001)])) [0xFE00] = some (0x4001, 0x8000, 0xFDFE, [0x0001]) := by decide
/-- A2, A6 -/
theorem test_add : resultIs 0x10 0xFFFF 0x0001 0x0000 ∧ resultIs 0x10 0x7FFF 0x0001 0x8000 := by unfold resultIs; decide
/-- A7, A8: the lower word minus the top word. -/
theorem test_sub : resultIs 0x11 0x0005 0x0003 0x0002 ∧ resultIs 0x11 0x0003 0x0005 0xFFFE := by unfold resultIs; decide
/-- A14, A21 -/
theorem test_mul : resultIs 0x12 0xFFFF 0xFFFF 0x0001 ∧ resultIs 0x12 0x0123 0x0100 0x2300 := by unfold resultIs; decide
/-- A24, A27 -/
theorem test_div : resultIs 0x13 0x8000 0xFFFF 0x0000 ∧ resultIs 0x13 0x0064 0x0007 0x000E := by unfold resultIs; decide
/-- A32, X6: a zero dividend is not the fault. -/
theorem test_div_zero :
    step (binary 0x13 0 0) = .fault .divideByZero ∧ resultIs 0x13 0x0000 0x0001 0x0000 := by unfold resultIs; exact ⟨rfl, by decide⟩
/-- A37, A39 -/
theorem test_mod : resultIs 0x14 0x0064 0x0007 0x0002 ∧ resultIs 0x14 0x8000 0x7FFF 0x0001 := by unfold resultIs; decide
/-- A42 -/
theorem test_mod_zero : step (binary 0x14 5 0) = .fault .divideByZero := rfl
/-- A44 -/
theorem test_and : resultIs 0x15 0x0FF0 0x00FF 0x00F0 := by unfold resultIs; decide
/-- A48 -/
theorem test_or : resultIs 0x16 0x0FF0 0x00FF 0x0FFF := by unfold resultIs; decide
/-- A52 -/
theorem test_xor : resultIs 0x17 0x0FF0 0x00FF 0x0F0F := by unfold resultIs; decide
/-- A100 -/
theorem test_not : look (step (unary 0x18 0x00FF)) [0xFFFC] = some (0x0102, 0xFFFA, 0xFE00, [0xFF00]) := by decide
/-- A56, A61: the count is the top word and is not masked. -/
theorem test_shl : resultIs 0x19 0x0003 0x0004 0x0030 ∧ resultIs 0x19 0xFFFF 0x0020 0x0000 := by unfold resultIs; decide
/-- A73, A70 -/
theorem test_shr : resultIs 0x1A 0x8000 0x0001 0x4000 ∧ resultIs 0x1A 0xFFFF 0x0020 0x0000 := by unfold resultIs; decide
/-- A76, A78 -/
theorem test_eq : resultIs 0x1B 0x1234 0x1234 0xFFFF ∧ resultIs 0x1B 0x0100 0x0001 0x0000 := by unfold resultIs; decide
/-- A82, A86 -/
theorem test_lt : resultIs 0x1C 0x0003 0x0005 0xFFFF ∧ resultIs 0x1C 0xFFFF 0x0000 0x0000 := by unfold resultIs; decide
/-- A92, A93 -/
theorem test_le : resultIs 0x1D 0x0005 0x0005 0xFFFF ∧ resultIs 0x1D 0x8000 0x7FFF 0x0000 := by unfold resultIs; decide

/-! ### Witnesses: for each statement with hypotheses, a state and operands that meet them together -/

/-- Whether a next state has a property; a fault or a refusal has every property. -/
def nextHas (o : Host.Outcome State Fault Refusal) (p : State → Bool) : Bool :=
  match o with
  | .next t => p t
  | _ => true

theorem of_nextHas {o : Host.Outcome State Fault Refusal} {p : State → Bool} (h : nextHas o p = true) {t : State}
    (ht : o = .next t) : p t = true := by rw [ht] at h; exact h

/-- Whether an outcome is a next state. -/
def isNext (o : Host.Outcome State Fault Refusal) : Bool :=
  match o with
  | .next _ => true
  | _ => false

theorem of_isNext {o : Host.Outcome State Fault Refusal} (h : isNext o = true) : ∃ t, o = .next t := by
  cases o with
  | next t => exact ⟨t, rfl⟩
  | fault f => cases h
  | refused r => cases h

/-- A memory whose word at 0xFFFF wraps (S1). -/
def wrapped : Memory := memWith [(0xFFFF, 0xA1B2), (0x0400, 0x0008)]

theorem witness_ReadAfterWriteGivesValueWritten : wrapped.wf = true := by decide
theorem witness_ByteWriteChangesOneCell : wrapped.wf = true ∧ (0xFFFF : Word) = 0xFFFF ∧ (0x0000 : Word) ≠ 0xFFFF := by decide
theorem witness_WordWriteChangesTwoCells :
    wrapped.wf = true ∧ (0x0000 : Word) = u16 ((0xFFFF + 1) % 65536) ∧ (0x0001 : Word) ≠ u16 ((0xFFFF + 1) % 65536) := by decide
theorem witness_CanonicalMemoryIsKeptAndUnique :
    wrapped.wf = true ∧ ∃ n : Memory, n.wf = true ∧ ∀ x, readByte wrapped x = readByte n x :=
  ⟨by decide, wrapped, by decide, fun _ => rfl⟩
/-- The longest list, and one of the words of S2. -/
theorem witness_PushedWordsPopLastInFirstOut :
    (running 0 0xFFFE 0xFE00 []).mem.wf = true ∧ (List.replicate 32768 (0x0011 : Word)).length = 32768 ∧
    ([0x0011, 0x0022, 0x0033] : List Word).length ≤ 32768 := ⟨by decide, List.length_replicate, by decide⟩
theorem witness_EveryWordIsADefinedInstruction :
    decodeFirst 0x0020 = .whole (.call 0x0020) ∧ decodeFirst 0xFFFF = .whole (.call 0xFFFF) ∧ decodeFirst 0x001F = .whole .ret := by
  decide
theorem witness_DecodeReadsBackEveryEncoding :
    (Instr.call 0x0020).wellFormed = true ∧ (Instr.call 0xFFFF).wellFormed = true ∧
    (Instr.pushLiteral 0xFFFF).wellFormed = true ∧ Instr.ret.wellFormed = true := by decide
theorem witness_DecodedBytesAreTheEncoding :
    (∃ i rest, decode [0x00, 0x01, 0x12, 0x34, 0x56] = .ok (i, rest)) ∧
    (∃ e, decode [0x00] = .error e) ∧ ∃ e, decode [0x00, 0x01, 0x12] = .error e := ⟨⟨_, _, rfl⟩, ⟨_, rfl⟩, ⟨_, rfl⟩⟩
theorem witness_OperandFormExpandsToPushLiteral :
    65535 < 65536 ∧ Instr.storeWord.popsData = true ∧ Instr.callIndirect.popsData = true := by decide
/-- The two edges of `pc`, a first word 0x0001 and another. -/
theorem witness_FetchReadsWordAndAdvancesPc :
    (running 0xFFFF 0 0 []).pc = 0xFFFF ∧ (running 0xFFFE 0 0 []).pc = 0xFFFE ∧
    (fetch (running 0xFFFE 0 0 [(0xFFFE, 1)])).1 = 0x0001 ∧ (fetch (running 0xFFFF 0 0 [(0xFFFF, 2)])).1 ≠ 0x0001 := by decide
theorem witness_StepRunsTheDecodedInstruction : Ready (running 0xFFFE 0x8000 0xFE00 [(0xFFFE, 1)]) := by decide
theorem witness_EveryInstructionUsesOneUnitOfBudget :
    Ready (binary 0x10 5 3) ∧ ∃ t, step (binary 0x10 5 3) = .next t := ⟨by decide, of_isNext (by decide)⟩
/-- An instruction that moves `pc` on, and one that transfers control. -/
theorem witness_ProgramCounterAfterEachInstruction :
    (Ready (binary 0x10 5 3) ∧ ∃ t, step (binary 0x10 5 3) = .next t) ∧
    (Ready (unary 0x0D 0x0040) ∧ ∃ t, step (unary 0x0D 0x0040) = .next t) ∧
    (Instr.add ∉ [Instr.jump, .jumpIfZero, .jumpIfNonzero, .callIndirect, .ret] ∧ ∀ target, Instr.add ≠ .call target) :=
  ⟨⟨by decide, of_isNext (by decide)⟩, ⟨by decide, of_isNext (by decide)⟩, by decide, fun _ h => by cases h⟩
/-- M11: the stored word is `dup`, at 0x0102. -/
theorem witness_StoredInstructionWordExecutesNext :
    (binary 0xC 3 0x0102).mem.wf = true ∧ Ready (binary 0xC 3 0x0102) ∧ 2 ≤ (binary 0xC 3 0x0102).budget ∧
    dueLoad { binary 0xC 3 0x0102 with budget := (binary 0xC 3 0x0102).budget - 1 } = none ∧
    decodeFirst (readWord (binary 0xC 3 0x0102).mem (binary 0xC 3 0x0102).pc) = .whole .storeWord ∧
    dataWord (binary 0xC 3 0x0102) 2 = (binary 0xC 3 0x0102).pc + 2 ∧
    decodeFirst (dataWord (binary 0xC 3 0x0102) 4) = .whole .dup := by decide
/-- `div` by zero, `mod` by zero, and `div` by one. -/
theorem witness_StepFaultsExactlyOnZeroDivisor :
    (Ready (binary 0x13 5 0) ∧ readWord (binary 0x13 5 0).mem (binary 0x13 5 0).pc = 0x0013 ∧
      dataWord (binary 0x13 5 0) 2 = 0x0000) ∧
    (Ready (binary 0x14 0 0) ∧ readWord (binary 0x14 0 0).mem (binary 0x14 0 0).pc = 0x0014 ∧
      dataWord (binary 0x14 0 0) 2 = 0x0000) ∧
    (Ready (binary 0x13 0 1) ∧ dataWord (binary 0x13 0 1) 2 ≠ 0x0000) := by decide
/-- T3: the literal's word is at 0x0000. -/
theorem witness_PushLiteralPushesTheNextWord :
    Ready (running 0xFFFE 0x8000 0xFE00 [(0xFFFE, 1)]) ∧
    readWord (running 0xFFFE 0x8000 0xFE00 [(0xFFFE, 1)]).mem (running 0xFFFE 0x8000 0xFE00 [(0xFFFE, 1)]).pc = 0x0001 := by decide
theorem witness_DupAndOverNetEffect : (running 0x0100 0xFFFD 0xFE00 [(0x0100, 3), (0xFFFF, 0x1234)]).mem.wf = true := by decide
theorem witness_SwapAndRotNetEffect : (binary 4 1 2).mem.wf = true := by decide
theorem witness_ReturnStackMovesEffect : (unary 7 4).mem.wf = true := by decide
theorem witness_DupThenDropLeavesOnlyACopy : (unary 3 7).mem.wf = true := by decide
theorem witness_CallsAndReturnEffect : 0x0020 ≤ (0x0020 : Word).toNat ∧ 0x0020 ≤ (0xFFFF : Word).toNat := by decide
/-- S5 -/
theorem witness_ReturnResumesAfterTheCall :
    (running 0x0008 0xFFFE 0xFFFC [(0x0008, 0x0050)]).mem.wf = true ∧ Ready (running 0x0008 0xFFFE 0xFFFC [(0x0008, 0x0050)]) ∧
    0x0020 ≤ (readWord (running 0x0008 0xFFFE 0xFFFC [(0x0008, 0x0050)]).mem 0x0008).toNat ∧
    ∃ t, step (running 0x0008 0xFFFE 0xFFFC [(0x0008, 0x0050)]) = .next t :=
  ⟨by decide, by decide, by decide, of_isNext (by decide)⟩
/-- A divisor of 1, the largest, and zero. -/
theorem witness_DivModEffect :
    dataWord (binary 0x13 7 1) 2 ≠ 0x0000 ∧ dataWord (binary 0x13 7 0xFFFF) 2 ≠ 0x0000 ∧ dataWord (binary 0x14 7 0) 2 = 0x0000 := by
  decide
theorem witness_ShiftsEffect :
    16 ≤ (dataWord (binary 0x19 0xFFFF 0x0010) 2).toNat ∧ 16 ≤ (dataWord (binary 0x19 0xFFFF 0xFFFF) 2).toNat ∧
    (dataWord (binary 0x19 0xFFFF 0x000F) 2).toNat < 16 := by decide
theorem witness_RegisterFrameOfEveryInstruction :
    (∃ t, exec .rot (binary 6 1 2) = .next t) ∧ ∃ t, exec .callIndirect (unary 0x1E 0x80) = .next t := ⟨⟨_, rfl⟩, ⟨_, rfl⟩⟩
/-- An instruction that stores a word, and a cell outside it. -/
theorem witness_MemoryFrameOfEveryInstruction :
    (binary 0xC 0xA1B2 0xFFFF).mem.wf = true ∧ (∃ t, exec .storeWord (binary 0xC 0xA1B2 0xFFFF) = .next t) ∧
    0x0001 ∉ storedCells .storeWord (binary 0xC 0xA1B2 0xFFFF) ∧ 0xFFFE ∉ storedCells .storeWord (binary 0xC 0xA1B2 0xFFFF) :=
  ⟨by decide, ⟨_, rfl⟩, by decide, by decide⟩
theorem witness_OnlyDivisionByZeroFaults :
    DividesByZero .div (binary 0x13 0 0) ∧ DividesByZero .mod (binary 0x14 5 0) ∧ ¬ DividesByZero .div (binary 0x13 0 1) ∧
    ¬ DividesByZero .add (binary 0x10 5 0) := by decide
/-- The lowest and the highest address of the save area. -/
theorem witness_StoreToSaveAreaDoesNotReachRegisters :
    ((binary 0xC 0x1234 0).mem.wf = true ∧ (dataWord (binary 0xC 0x1234 0) 2).toNat < 6 ∧
      ∃ t, exec .storeWord (binary 0xC 0x1234 0) = .next t) ∧
    ((binary 0xC 0x1234 5).mem.wf = true ∧ (dataWord (binary 0xC 0x1234 5) 2).toNat < 6 ∧
      ∃ t, exec .storeWord (binary 0xC 0x1234 5) = .next t) :=
  ⟨⟨by decide, by decide, _, rfl⟩, by decide, by decide, _, rfl⟩
/-- Two memories that differ in a cell that `add` does not touch. -/
theorem witness_StepDependsOnlyOnCellsItTouches :
    (binary 0x10 5 3).mem.wf = true ∧ (writeByte (binary 0x10 5 3).mem 0x0400 7).wf = true ∧
    ∀ a ∈ stepCells (binary 0x10 5 3), readByte (writeByte (binary 0x10 5 3).mem 0x0400 7) a = readByte (binary 0x10 5 3).mem a := by
  refine ⟨by decide, by decide, fun a ha => ?_⟩
  have h : ((stepCells (binary 0x10 5 3)).all fun a =>
      decide (readByte (writeByte (binary 0x10 5 3).mem 0x0400 7) a = readByte (binary 0x10 5 3).mem a)) = true := by decide
  exact of_decide_eq_true (List.all_eq_true.mp h a ha)
theorem witness_BatchStartLoadsRegistersFromSaveArea :
    (idle 0x0008 0xFFFE 0xFFFC [] [.run 5]).status = .idle ∧ (idle 0x0008 0xFFFE 0xFFFC [] [.run 5]).pending = [.run 5] := by decide
theorem witness_WriteBackStoresRegistersInSaveArea :
    ({ running 0x0018 0xFFFE 0xFFFC [(0x0002, 0x1234)] with budget := 0 } : State).mem.wf = true ∧
    ({ running 0x0018 0xFFFE 0xFFFC [(0x0002, 0x1234)] with budget := 0 } : State).status = .running ∧
    ({ running 0x0018 0xFFFE 0xFFFC [(0x0002, 0x1234)] with budget := 0 } : State).budget = 0 ∧
    dueLoad { running 0x0018 0xFFFE 0xFFFC [(0x0002, 0x1234)] with budget := 0 } = none := by decide
theorem witness_RunOfZeroStepsChangesNoMemory :
    (idle 0x0008 0xFFFE 0xFFFC [] []).mem.wf = true ∧ (idle 0x0008 0xFFFE 0xFFFC [] []).status = .idle := by decide
theorem witness_RunIsLoadThenStepsThenWriteBack :
    (idle 0x0008 0xFFFE 0xFFFC [] [.run 5, .frameTick]).status = .idle ∧ (idle 0x0008 0xFFFE 0xFFFC [] [.run 5, .frameTick]).budget = 0 ∧
    (idle 0x0008 0xFFFE 0xFFFC [] [.run 5, .frameTick]).pending = [.run 5, .frameTick] ∧
    ∀ k, k ≤ 5 → dueLoad { idle 0x0008 0xFFFE 0xFFFC [] [.run 5, .frameTick] with budget := k, pending := [.frameTick] } = none :=
  ⟨by decide, by decide, by decide, fun _ _ => rfl⟩

/-- The image of P1 with nothing waiting. -/
def imageP1 : State :=
  idle 0x0008 0xFFFE 0xFFFC
    [(0x0008, 1), (0x000A, 5), (0x000C, 1), (0x000E, 3), (0x0010, 0x10), (0x0012, 1), (0x0014, 0x0400), (0x0016, 0xC)] []

/-- P1 split after its first step, as in B4; its second step touches no cell of the save area. -/
theorem witness_BatchesComposeOutsideTheSaveArea :
    imageP1.mem.wf = true ∧ imageP1.status = .idle ∧ (∃ t, runBatch (1 + 1) imageP1 = .next t) ∧
    ∀ k u, k < 1 → repeatStep (1 + k) { loadRegisters imageP1 with status := .running } = .next u →
      ∀ a ∈ stepCells u, 6 ≤ a.toNat := by
  refine ⟨by decide, by decide, of_isNext (by decide), fun k u hk hu a ha => ?_⟩
  obtain rfl : k = 0 := by omega
  have h := of_nextHas (p := fun u => (stepCells u).all fun a => decide (6 ≤ a.toNat)) (by decide) hu
  exact of_decide_eq_true (List.all_eq_true.mp h a ha)
theorem witness_FrameCounterConstantWithinABatch :
    imageP1.mem.wf = true ∧ (∃ t, repeatStep 1 (loadRegisters imageP1) = .next t) ∧
    ∀ k u, k < 1 → repeatStep k (loadRegisters imageP1) = .next u →
      ∀ a ∈ storedCells (fetchInstr u).1 (fetchInstr u).2, a ≠ 0x0006 ∧ a ≠ 0x0007 := by
  refine ⟨by decide, of_isNext (by decide), fun k u hk hu a ha => ?_⟩
  obtain rfl : k = 0 := by omega
  have h := of_nextHas (p := fun u => (storedCells (fetchInstr u).1 (fetchInstr u).2).all fun a => decide (a ≠ 0x0006 ∧ a ≠ 0x0007))
    (by decide) hu
  exact of_decide_eq_true (List.all_eq_true.mp h a ha)
theorem witness_HostCannotActDuringABatch :
    ((running 0x0100 0xFFFA 0xFE00 []).status = .running ∧ dueLoad (running 0x0100 0xFFFA 0xFE00 []) = none ∧
      dueLoad { running 0x0100 0xFFFA 0xFE00 [] with pending := [.loadImage [], .frameTick] } = none) ∧
    (({ running 0x0100 0xFFFA 0xFE00 [] with budget := 0 } : State).status = .running ∧
      dueLoad { running 0x0100 0xFFFA 0xFE00 [] with budget := 0 } = none ∧
      dueLoad { running 0x0100 0xFFFA 0xFE00 [] with budget := 0, pending := [.loadImageDuring 1 []] } = none) := by decide
/-- From Idle with a `Run`, from Idle with nothing, from Running with a step left, and with none. -/
theorem witness_StatusChangesOnlyAtBatchBoundaries :
    ((idle 8 0 0 [] [.run 3]).status = .idle ∧ ∃ t, step (idle 8 0 0 [] [.run 3]) = .next t) ∧
    ((idle 8 0 0 [] []).status = .idle ∧ ∃ t, step (idle 8 0 0 [] []) = .next t) ∧
    ((unary 3 7).status = .running ∧ ∃ t, step (unary 3 7) = .next t) ∧
    (({ unary 3 7 with budget := 0 } : State).status = .running ∧ ∃ t, step { unary 3 7 with budget := 0 } = .next t) ∧
    (({ unary 3 7 with status := .faulted .divideByZero } : State).status = .faulted .divideByZero ∧
      ∃ t, step { unary 3 7 with status := .faulted .divideByZero } = .next t) ∧
    (State.beforeImage.status = .unloaded ∧ ∃ t, step State.beforeImage = .next t) :=
  ⟨⟨rfl, _, rfl⟩, ⟨rfl, _, rfl⟩, ⟨rfl, _, rfl⟩, ⟨rfl, _, rfl⟩, ⟨rfl, _, rfl⟩, rfl, _, rfl⟩
/-- P5's division. -/
theorem witness_FaultLeavesTheCoreFaulted : step (binary 0x13 1 0) = .fault .divideByZero := rfl

/-- A Faulted core with actions of the host waiting. -/
def faulted (pending : List HostAction) : State := { State.reset with status := .faulted .divideByZero, pending := pending }

/-- A `Run`, an image of 65536 bytes, and no image at all. -/
theorem witness_OnlyAnImageLoadLeavesFaulted :
    ((faulted [.run 1]).status = .faulted .divideByZero ∧ (faulted [.run 1]).pending = [.run 1]) ∧
    ((faulted [.loadImage (List.replicate 65536 7)]).status = .faulted .divideByZero ∧
      (List.replicate 65536 (7 : Byte)).length = 65536) ∧
    ∀ act ∈ (faulted [.run 1, .frameTick]).pending, loadedImage act = none :=
  ⟨⟨rfl, rfl⟩, ⟨rfl, List.length_replicate⟩, by decide⟩
/-- An image of the right length from Faulted; one a byte short from Idle; and one due in a batch with two steps left. -/
theorem witness_ImageLoadSetsEveryCell :
    (List.replicate 65536 (7 : Byte)).length = 65536 ∧ (List.replicate 65535 (7 : Byte)).length ≠ 65536 ∧
    ((faulted [.loadImage (List.replicate 65536 7)]).status ≠ .running ∧
      loadedImage (.loadImage (List.replicate 65536 7)) = some (List.replicate 65536 7)) ∧
    ((idle 0 0 0 [] [.loadImage (List.replicate 65535 7)]).status ≠ .running ∧
      (idle 0 0 0 [] [.loadImage (List.replicate 65535 7)]).pending = [.loadImage (List.replicate 65535 7)]) ∧
    (({ unary 3 7 with pending := [.loadImageDuring 2 (List.replicate 65536 7)] } : State).status = .running ∧
      ({ unary 3 7 with pending := [.loadImageDuring 2 (List.replicate 65536 7)] } : State).budget = 2) :=
  ⟨List.length_replicate, by rw [List.length_replicate]; decide, ⟨fun h => (by cases h), rfl⟩, ⟨fun h => (by cases h), rfl⟩,
    rfl, rfl⟩
/-- P6: the counter at 0xFFFF, the tick waiting; and a Faulted core with the tick waiting. -/
theorem witness_FrameTickIncrementsTheCounter :
    ((idle 8 0 0 [(6, 0xFFFF)] [.frameTick]).mem.wf = true ∧ (idle 8 0 0 [(6, 0xFFFF)] [.frameTick]).pending = [.frameTick] ∧
      (idle 8 0 0 [(6, 0xFFFF)] [.frameTick]).status = .idle) ∧
    ((faulted [.frameTick]).mem.wf = true ∧ (faulted [.frameTick]).pending = [.frameTick] ∧
      (faulted [.frameTick]).status = .faulted .divideByZero) := by decide

/-- P1's first step stores to 0xFFFE, not to the counter, in either order. -/
theorem witness_FrameOfEitherOrderCountsOne (order : Config.FrameTick) :
    imageP1.mem.wf = true ∧ imageP1.status = .idle ∧ (∃ t, runFrame order 1 imageP1 = .next t) ∧
    ∀ k u, k < 1 → repeatStep k { loadRegisters (frameStart order imageP1) with status := .running } = .next u →
      ∀ a ∈ storedCells (fetchInstr u).1 (fetchInstr u).2, a ≠ 0x0006 ∧ a ≠ 0x0007 := by
  refine ⟨by decide, by decide, of_isNext (by cases order <;> decide), fun k u hk hu a ha => ?_⟩
  obtain rfl : k = 0 := by omega
  have h : (storedCells (fetchInstr u).1 (fetchInstr u).2).all (fun a => decide (a ≠ 0x0006 ∧ a ≠ 0x0007)) = true := by
    cases order
    · exact of_nextHas (p := fun u => (storedCells (fetchInstr u).1 (fetchInstr u).2).all fun a => decide (a ≠ 0x0006 ∧ a ≠ 0x0007))
        (by decide) hu
    · exact of_nextHas (p := fun u => (storedCells (fetchInstr u).1 (fetchInstr u).2).all fun a => decide (a ≠ 0x0006 ∧ a ≠ 0x0007))
        (by decide) hu
  exact of_decide_eq_true (List.all_eq_true.mp h a ha)

/-- The last pixel, with its address on the stack. -/
theorem witness_StoreByteDrawsOnePixel :
    ((binary 0xB 0x12AB 0x43FF).mem.wf = true ∧ 127 < 128 ∧
      dataWord (binary 0xB 0x12AB 0x43FF) 2 = pixelAddress 127 127 ∧ ∃ t, exec .storeByte (binary 0xB 0x12AB 0x43FF) = .next t) ∧
    dataWord (binary 0xB 0x12AB 0x0400) 2 = pixelAddress 0 0 :=
  ⟨⟨by decide, by decide, by decide, _, rfl⟩, by decide⟩
/-- S8: a frame buffer of zeros and palette entry 0 red. -/
theorem witness_StoreByteDrawsOnePixel_red :
    (memWith [(0x0100, 0xFF00)]).wf = true ∧
    (∀ a : Word, 0x0400 ≤ a.toNat → a.toNat ≤ 0x43FF → readByte (memWith [(0x0100, 0xFF00)]) a = 0x00) ∧
    readByte (memWith [(0x0100, 0xFF00)]) 0x0100 = 0xFF ∧ readByte (memWith [(0x0100, 0xFF00)]) 0x0101 = 0x00 ∧
    readByte (memWith [(0x0100, 0xFF00)]) 0x0102 = 0x00 := by
  refine ⟨by decide, fun a h _ => ?_, by decide, by decide, by decide⟩
  have : memWith [(0x0100, 0xFF00)] = [(0x0100, 0xFF)] := by decide
  rw [this]
  simp only [readByte, readCell]
  rw [if_neg (by omega)]; rfl
/-- Before any image: a `Run`, a tick, an image a byte short, one of the right length, and a queue without any. -/
theorem witness_NothingRunsBeforeAnImageIsLoaded :
    (({ State.beforeImage with pending := [.run 1] } : State).status = .unloaded ∧
      ∀ act ∈ [HostAction.run 1, .frameTick], ∀ image, loadedImage act = some image → image.length ≠ 65536) ∧
    (∀ image, loadedImage .frameTick = some image → image.length ≠ 65536) ∧
    (List.replicate 65535 (7 : Byte)).length ≠ 65536 ∧ (List.replicate 65536 (7 : Byte)).length = 65536 :=
  ⟨⟨rfl, fun act ha image h => by simp at ha; rcases ha with rfl | rfl <;> cases h⟩, fun image h => (by cases h), by rw [List.length_replicate]; decide, List.length_replicate⟩
theorem witness_ResetIsTheLoadOfTheZeroImage : State.reset.pending = [] := rfl
/-- An Idle state, one in a batch, and a Faulted one. -/
theorem witness_EveryStepKeepsTheInvariant :
    (imageP1.Inv ∧ ∃ t, step imageP1 = .next t) ∧ ((binary 0x13 1 0).Inv ∧ step (binary 0x13 1 0) = .fault .divideByZero) ∧
    (faulted [.run 1]).Inv := ⟨⟨by decide, _, rfl⟩, ⟨by decide, rfl⟩, by decide⟩

end Sys2Proof.Tests
end

section
/-! SUPPORT. Register arithmetic read as the spec writes it, `u16` of a natural number (R7), and with it the obligations on one
push and one pop of either stack (R29 to R32). -/

namespace Sys2Proof.Machine

/-- Word addition in the notation of R7. -/
theorem add_eq_u16 (a k : Word) : a + k = u16 ((a.toNat + k.toNat) % 65536) := by
  apply BitVec.eq_of_toNat_eq
  simp only [u16, BitVec.toNat_add, BitVec.toNat_ofNat, Nat.reducePow, Nat.mod_mod]

/-- Word subtraction in the notation of R7: 65536 is added first, so that the natural subtraction is not cut off at 0. -/
theorem sub_eq_u16 (a k : Word) : a - k = u16 ((a.toNat + 65536 - k.toNat) % 65536) := by
  apply BitVec.eq_of_toNat_eq
  have hk := k.isLt
  simp only [u16, BitVec.toNat_sub, BitVec.toNat_ofNat, Nat.reducePow]
  omega

/-- A stack pointer after a push (R29, R31). -/
theorem pointer_sub_two (p : Word) : p - 2 = u16 ((p.toNat + 65536 - 2) % 65536) := sub_eq_u16 p 2

/-- A stack pointer after a pop (R30, R32). -/
theorem pointer_add_two (p : Word) : p + 2 = u16 ((p.toNat + 2) % 65536) := add_eq_u16 p 2

/-- Settles O6: the model's push, with its `- 2` on words read modulo 65536. -/
theorem pushWritesAtPointerThenDecrements : Obligations.PushWritesAtPointerThenDecrements := by
  intro v s
  constructor
  · rw [pushD, pointer_sub_two s.sp]
  · rw [pushR, pointer_sub_two s.rp]

/-- Settles O7: the model's pop, with its `+ 2` on words read modulo 65536. -/
theorem popIncrementsPointerThenReads : Obligations.PopIncrementsPointerThenReads := by
  intro s
  constructor
  · rw [popD, pointer_add_two s.sp]
  · rw [popR, pointer_add_two s.rp]

end Sys2Proof.Machine
end

section
/-! SUPPORT. A word and its bytes as natural numbers (R7, R53, R54), and with them the obligations on reading a word and on
writing a byte. -/

namespace Sys2Proof

/-- `{hi, lo}` is `hi * 256 + lo` (R7): the sum of two bytes so weighted is below 65536, so nothing is cut off. -/
@[simp] theorem wordOfBytes_toNat (hi lo : Byte) : (wordOfBytes hi lo).toNat = hi.toNat * 256 + lo.toNat := by
  have hhi := hi.isLt
  have hlo := lo.isLt
  rw [wordOfBytes, BitVec.toNat_ofNat]
  exact Nat.mod_eq_of_lt (by omega)

@[simp] theorem loByte_toNat (v : Word) : (loByte v).toNat = v.toNat % 256 := BitVec.toNat_ofNat v.toNat 8

end Sys2Proof

namespace Sys2Proof.Machine

/-- The address after `a`, which is 0 after 65535 (R53). -/
theorem address_add_one (a : Word) : a + 1 = u16 ((a.toNat + 1) % 65536) := add_eq_u16 a 1

/-- Settles O2: the value of a word of two bytes, with the second address read modulo 65536. -/
theorem wordReadIsBigEndianAndWraps : Obligations.WordReadIsBigEndianAndWraps := by
  intro m a
  rw [readWord, wordOfBytes_toNat, address_add_one a]

/-- Settles O3: read after write on a canonical memory, and the value of a word's low byte. -/
theorem byteWriteChangesOneCell : Obligations.ByteWriteChangesOneCell := by
  intro m a x b v hm
  exact ⟨readByte_writeByte hm a x b, loByte_toNat v⟩

end Sys2Proof.Machine
end

section
/-! SUPPORT. The first word read back (R82, R86): the instruction it begins has that word as its first word, and only the
words from 0x0020 up are calls. With them the obligation that every word begins an instruction. -/

namespace Sys2Proof

/-- A first word that is a whole instruction is all of that instruction's encoding. -/
theorem wellFormed_and_encodeWords_of_decodeFirst_whole {w : Word} {i : Instr} (h : decodeFirst w = .whole i) :
    i.wellFormed = true ∧ encodeWords i = [w] := by
  rcases decodeFirst_spec w with ⟨hlit, _⟩ | ⟨j, hj, hwf, henc, _⟩
  · cases h.symm.trans hlit
  · cases h.symm.trans hj
    exact ⟨hwf, henc⟩

/-- The implicit calls are the words from 0x0020 up, each a call to itself (R63, R86). -/
theorem decodeFirst_eq_call_iff {w target : Word} :
    decodeFirst w = .whole (.call target) ↔ target = w ∧ 0x0020 ≤ w.toNat := by
  constructor
  · intro h
    obtain ⟨hwf, henc⟩ := wellFormed_and_encodeWords_of_decodeFirst_whole h
    obtain rfl : target = w := List.singleton_inj.mp henc
    exact ⟨rfl, of_decide_eq_true hwf⟩
  · rintro ⟨rfl, hge⟩
    exact decodeFirst_call hge

/-- Whatever the literal, the instruction a word begins is well-formed and begins with that word. -/
theorem firstWordInstr_decodeFirst_spec (w imm : Word) :
    (firstWordInstr imm (decodeFirst w)).wellFormed = true ∧
    (encodeWords (firstWordInstr imm (decodeFirst w))).head? = some w := by
  cases h : decodeFirst w with
  | whole i =>
    obtain ⟨hwf, henc⟩ := wellFormed_and_encodeWords_of_decodeFirst_whole h
    exact ⟨hwf, congrArg List.head? henc⟩
  | literalFollows =>
    rcases decodeFirst_spec w with ⟨_, rfl⟩ | ⟨_, hwhole, _⟩
    · exact ⟨rfl, rfl⟩
    · cases h.symm.trans hwhole

/-- Settles O10: the instruction a word begins, and which words are calls. -/
theorem everyWordIsADefinedInstruction : Obligations.EveryWordIsADefinedInstruction := by
  intro w imm
  obtain ⟨hwf, hhead⟩ := firstWordInstr_decodeFirst_spec w imm
  refine ⟨hwf, hhead, ⟨fun hge => ⟨w, decodeFirst_call hge⟩, ?_⟩, fun _ hcall => (decodeFirst_eq_call_iff.mp hcall).1⟩
  rintro ⟨_, hcall⟩
  exact (decodeFirst_eq_call_iff.mp hcall).2

end Sys2Proof
end

section
/-! SUPPORT. The stack instructions that grow or shrink the data stack (spec 41_stack.md): `nop`, `push-literal`, `drop`, `dup`
and `over`, each as at most one pop or push, and with them the obligations on their effect. -/

namespace Sys2Proof.Machine

/-- `nop` leaves the state (R120). -/
theorem exec_nop (s : State) : exec .nop s = .next s := rfl

/-- `push-literal` is one push (R121). -/
theorem exec_pushLiteral (imm : Word) (s : State) : exec (.pushLiteral imm) s = .next (pushD imm s) := rfl

/-- `drop` is one pop whose word is discarded (R122). -/
theorem exec_drop (s : State) : exec .drop s = .next (popD s).2 := rfl

/-- `dup` is one push: its first push puts the popped word back where it was (R123). -/
theorem exec_dup_eq_pushD {s : State} (h : s.mem.wf = true) : exec .dup s = .next (pushD (dataWord s 2) s) :=
  calc exec .dup s
    _ = .next (pushD (popD s).1 (pushD (popD s).1 (popD s).2)) := rfl
    _ = .next (pushD (popD s).1 s) := by rw [pushD_popD h]

/-- The word below the top is the one a second pop gives (R125). -/
theorem popD_popD_value (s : State) : (popD (popD s).2).1 = dataWord s 4 := by
  rw [popD_value, popD_mem, popD_sp, slot_pop_pop, dataWord]

/-- `over` is one push: its first two pushes undo its two pops, the later one first (R125). -/
theorem exec_overWord_eq_pushD {s : State} (h : s.mem.wf = true) :
    exec .overWord s = .next (pushD (dataWord s 4) s) := by
  have hpopped : (popD s).2.mem.wf = true := h
  calc exec .overWord s
    _ = .next (pushD (popD (popD s).2).1 (pushD (popD s).1 (pushD (popD (popD s).2).1 (popD (popD s).2).2))) := rfl
    _ = .next (pushD (popD (popD s).2).1 s) := by rw [pushD_popD hpopped, pushD_popD h]
    _ = .next (pushD (dataWord s 4) s) := by rw [popD_popD_value]

/-- A step on a first word that a literal follows pushes that literal in the execute phase (R103, R121). -/
theorem step_of_literalFollows {s : State} (hready : Ready s)
    (hlit : decodeFirst (readWord s.mem s.pc) = .literalFollows) :
    step s = exec (.pushLiteral (readWord s.mem (s.pc + 2))) (afterFetch s 4) := by
  rw [step_of_ready hready, instrStep, fetchInstr_literal (s := { s with budget := s.budget - 1 }) hlit, afterFetch]

/-- Settles O24: the pushes of `dup` and `over` that put a word back are undone pops, and one push is left. -/
theorem dupAndOverNetEffect : Obligations.DupAndOverNetEffect :=
  ⟨rfl, rfl, fun _ hwf => ⟨exec_dup_eq_pushD hwf, exec_overWord_eq_pushD hwf⟩⟩

/-- Settles O22: no operation, and one pop. -/
theorem nopAndDropEffect : Obligations.NopAndDropEffect :=
  ⟨rfl, rfl, fun s => ⟨exec_nop s, exec_drop s⟩⟩

/-- Settles O23: one push in the execute phase, and the two fetches before it in a whole step. -/
theorem pushLiteralPushesTheNextWord : Obligations.PushLiteralPushesTheNextWord := by
  refine ⟨rfl, exec_pushLiteral, fun s hready hword => ?_⟩
  have hlit : decodeFirst (readWord s.mem s.pc) = .literalFollows := by rw [hword]; rfl
  rw [step_of_literalFollows hready hlit, exec_pushLiteral, pushD, afterFetch]

end Sys2Proof.Machine
end

section
/-! SUPPORT. The byte constructions of the load and store rules in the notation of R7, the four load and store instructions
in net effect (spec 42_memory_access.md), and with them the obligations on their effect. -/

namespace Sys2Proof

/-- The low byte of a word in the notation of R7. -/
theorem loByte_eq_u8 (v : Word) : loByte v = u8 (v.toNat % 256) := by
  apply BitVec.eq_of_toNat_eq
  rw [loByte_toNat, u8, BitVec.toNat_ofNat, Nat.mod_mod]

/-- The high byte of a word in the notation of R7. -/
theorem hiByte_eq_u8 (v : Word) : hiByte v = u8 (v.toNat / 256) := rfl

/-- Zero extension puts a zero byte above the byte (R140). -/
theorem u16_byte_toNat (b : Byte) : u16 b.toNat = wordOfBytes 0x00 b :=
  calc u16 b.toNat
    _ = u16 (0 * 256 + b.toNat) := by rw [Nat.zero_mul, Nat.zero_add]
    _ = wordOfBytes 0x00 b := rfl

end Sys2Proof

namespace Sys2Proof.Machine

/-- `load-byte` is the one-operand frame, the byte read from the memory before the push (R140). -/
theorem exec_loadByte (s : State) :
    exec .loadByte s = .next
      { s with mem := writeWord s.mem (s.sp + 2) (u16 (readByte s.mem (dataWord s 2)).toNat) } := by
  rw [exec, execLoadByte, unaryOp_eq, dataWord]

/-- `load-word` is the one-operand frame, the word read from the memory before the push (R141). -/
theorem exec_loadWord (s : State) :
    exec .loadWord s = .next { s with mem := writeWord s.mem (s.sp + 2) (readWord s.mem (dataWord s 2)) } := by
  rw [exec, execLoadWord, unaryOp_eq, dataWord]

/-- `store-byte` writes one cell after both pops (R142). -/
theorem exec_storeByte (s : State) :
    exec .storeByte s = .next
      { s with mem := writeByte s.mem (dataWord s 2) (loByte (dataWord s 4)), sp := s.sp + 4 } := by
  rw [exec, execStoreByte, popAddrValue_eq, dataWord, dataWord]

/-- `store-word` writes one word after both pops (R143). -/
theorem exec_storeWord (s : State) :
    exec .storeWord s = .next
      { s with mem := writeWord s.mem (dataWord s 2) (dataWord s 4), sp := s.sp + 4 } := by
  rw [exec, execStoreWord, popAddrValue_eq, dataWord, dataWord]

/-- Settles O28: the one-operand frame with a zero-extended byte, and with the two bytes of a word. -/
theorem loadsEffect : Obligations.LoadsEffect := by
  refine ⟨rfl, rfl, fun s => ⟨?_, ?_⟩⟩
  · rw [exec_loadByte, u16_byte_toNat]
  · rw [exec_loadWord, readWord]

/-- Settles O29: the write after both pops, of the low byte alone, and of the high byte and then the low byte. -/
theorem storesEffect : Obligations.StoresEffect := by
  refine ⟨rfl, rfl, fun s => ⟨?_, ?_⟩⟩
  · rw [exec_storeByte, loByte_eq_u8]
  · rw [exec_storeWord, writeWord, hiByte_eq_u8, loByte_eq_u8]

end Sys2Proof.Machine
end

section
/-! SUPPORT. When a consumed flag is zero, the three jumps, the two calls and `return` in net effect (spec 43_control.md), and
with them the obligations on their effect. -/

namespace Sys2Proof.Machine

/-! ### The jumps -/

/-- A flag is false exactly when its word is 0 (R190). -/
theorem flagIsTrue_eq_false_iff_toNat (flag : Word) : flagIsTrue flag = false ↔ flag.toNat = 0 := by
  rw [← Bool.not_eq_true, flagIsTrue_iff, not_not]
  exact BitVec.toNat_inj.symm

/-- A flag is true exactly when its word is not 0 (R190). -/
theorem flagIsTrue_iff_toNat_ne (flag : Word) : flagIsTrue flag = true ↔ flag.toNat ≠ 0 := by
  rw [ne_eq, ← flagIsTrue_eq_false_iff_toNat, Bool.not_eq_false]

/-- `jump` pops the target into `pc` (R150). -/
theorem exec_jump (s : State) : exec .jump s = .next { s with pc := dataWord s 2, sp := s.sp + 2 } := rfl

/-- `jump-if-zero` is the conditional jump taken on a false flag (R151). -/
theorem exec_jumpIfZero (s : State) :
    exec .jumpIfZero s = .next
      { s with pc := if (dataWord s 4).toNat = 0 then dataWord s 2 else s.pc, sp := s.sp + 4 } := by
  rw [← if_congr (flagIsTrue_eq_false_iff_toNat (dataWord s 4)) rfl rfl]
  rw [exec, execJumpIfZero, jumpWhen_eq, dataWord, dataWord]

/-- `jump-if-nonzero` is the conditional jump taken on a true flag (R152). -/
theorem exec_jumpIfNonzero (s : State) :
    exec .jumpIfNonzero s = .next
      { s with pc := if (dataWord s 4).toNat = 0 then s.pc else dataWord s 2, sp := s.sp + 4 } := by
  rw [← ite_not, ← if_congr (flagIsTrue_iff_toNat_ne (dataWord s 4)) rfl rfl]
  rw [exec, execJumpIfNonzero, jumpWhen_eq, dataWord, dataWord]

/-- Settles O30: `jump` is one pop into `pc`, the conditional jumps the common frame with the flag compared with 0. -/
theorem jumpsEffect : Obligations.JumpsEffect :=
  ⟨rfl, rfl, rfl, fun s => ⟨exec_jump s, exec_jumpIfZero s, exec_jumpIfNonzero s⟩⟩

/-! ### The calls and `return` -/

/-- `call-indirect` pops its target after the push of the return address, from the memory that push left (R153). -/
theorem exec_callIndirect (s : State) :
    exec .callIndirect s = .next (setPc (popD (pushR s.pc s)).1 (popD (pushR s.pc s)).2) := rfl

/-- `return` pops the return stack into `pc` (R154). -/
theorem exec_ret (s : State) : exec .ret s = .next (setPc (popR s).1 (popR s).2) := rfl

/-- The implicit call pushes the return address and goes to the instruction word (R155). -/
theorem exec_call (target : Word) (s : State) : exec (.call target) s = .next (setPc target (pushR s.pc s)) := rfl

/-- Settles O31: each as its pushes and pops in the order of the rule, and the words from 0x0020 up decoded as calls. -/
theorem callsAndReturnEffect : Obligations.CallsAndReturnEffect := by
  refine ⟨rfl, rfl, fun s w => ⟨?_, ?_, ?_, decodeFirst_call⟩⟩
  · rw [exec_callIndirect, popD_value, pushR_mem, pushR_sp, setPc, popD, pushR]
  · rw [exec_ret, popR_value, setPc, popR]
  · rw [exec_call, setPc, pushR]

end Sys2Proof.Machine
end

section
/-! SUPPORT. Sums, differences, products and complements of words in the notation of R7, the operand frames over
`dataWord`, the arithmetic and bitwise instructions in these frames (spec 44_arith_logic.md), and with them the obligations
on their effect. -/

namespace Sys2Proof

/-- `u16` keeps the low 16 bits, so it does not see a reduction modulo 65536 (R7). -/
theorem u16_mod (e : Nat) : u16 (e % 65536) = u16 e := by
  apply BitVec.eq_of_toNat_eq
  simp only [u16, BitVec.toNat_ofNat, Nat.reducePow, Nat.mod_mod]

/-- The low half of a product (R173). -/
theorem mul_eq_u16 (a b : Word) : a * b = u16 (a.toNat * b.toNat) := by
  apply BitVec.eq_of_toNat_eq
  rw [BitVec.toNat_mul, u16, BitVec.toNat_ofNat]

/-- The complement of a word is 0xFFFF minus it (R179). -/
theorem not_eq_u16 (a : Word) : ~~~a = u16 (65535 - a.toNat) := by
  apply BitVec.eq_of_toNat_eq
  have hlt : 65535 - a.toNat < 2 ^ 16 := by omega
  rw [BitVec.toNat_not, u16, BitVec.toNat_ofNat, Nat.mod_eq_of_lt hlt]

end Sys2Proof

namespace Sys2Proof.Machine

/-! ### The operand frames over the words of the data stack -/

/-- The two-operand frame: the word below the top on the left, the top word on the right (R170). -/
theorem binaryOp_eq_dataWord (f : Word → Word → Word) (s : State) :
    binaryOp f s =
      { s with mem := writeWord s.mem (s.sp + 4) (f (dataWord s 4) (dataWord s 2)), sp := s.sp + 2 } :=
  binaryOp_eq f s

/-- The one-operand frame: the top word is replaced in place (R179). -/
theorem unaryOp_eq_dataWord (f : Word → Word) (s : State) :
    unaryOp f s = { s with mem := writeWord s.mem (s.sp + 2) (f (dataWord s 2)) } :=
  unaryOp_eq f s

/-! ### `add`, `sub` and `mul` -/

theorem exec_add (s : State) : exec .add s = .next (binaryOp (fun a b => a + b) s) := rfl

theorem exec_sub (s : State) : exec .sub s = .next (binaryOp (fun a b => a - b) s) := rfl

theorem exec_mul (s : State) : exec .mul s = .next (binaryOp (fun a b => a * b) s) := rfl

/-- Settles O33: the two-operand frame with the word operators read as arithmetic modulo 65536. -/
theorem addSubMulEffect : Obligations.AddSubMulEffect := by
  refine ⟨rfl, rfl, rfl, fun s => ⟨?_, ?_, ?_⟩⟩
  · rw [exec_add, binaryOp_eq_dataWord, add_eq_u16 (dataWord s 4), u16_mod]
  · rw [exec_sub, binaryOp_eq_dataWord, sub_eq_u16 (dataWord s 4), u16_mod]
  · rw [exec_mul, binaryOp_eq_dataWord, mul_eq_u16]

/-! ### `and`, `or`, `xor` and `not` -/

theorem exec_and (s : State) : exec .and s = .next (binaryOp (fun a b => a &&& b) s) := rfl

theorem exec_or (s : State) : exec .or s = .next (binaryOp (fun a b => a ||| b) s) := rfl

theorem exec_xor (s : State) : exec .xor s = .next (binaryOp (fun a b => a ^^^ b) s) := rfl

theorem exec_not (s : State) : exec .not s = .next (unaryOp (fun a => ~~~a) s) := rfl

/-- Settles O35: the two-operand frame with a result fixed by its bits, and the one-operand frame with the complement. -/
theorem bitwiseEffect : Obligations.BitwiseEffect := by
  refine ⟨rfl, rfl, rfl, rfl, fun s => ⟨dataWord s 4 &&& dataWord s 2, dataWord s 4 ||| dataWord s 2,
    dataWord s 4 ^^^ dataWord s 2, ?_, ?_, ?_, fun k _ => ⟨?_, ?_, ?_⟩, ?_⟩⟩
  · rw [exec_and, binaryOp_eq_dataWord]
  · rw [exec_or, binaryOp_eq_dataWord]
  · rw [exec_xor, binaryOp_eq_dataWord]
  · exact BitVec.getLsbD_and
  · exact BitVec.getLsbD_or
  · exact BitVec.getLsbD_xor
  · rw [exec_not, unaryOp_eq_dataWord, not_eq_u16]

end Sys2Proof.Machine
end

section
/-! SUPPORT. The produced flag by the comparison it stands for, the comparison instructions in the two-operand frame (spec
45_compare.md), and with them the obligation on their effect. -/

namespace Sys2Proof.Machine

/-! ### The flag of a comparison, over the words read as unsigned numbers -/

/-- The produced flag of a Boolean that decides `p` (R190). -/
theorem flagWord_eq_ite {b : Bool} {p : Prop} [Decidable p] (h : b = true ↔ p) :
    flagWord b = if p then 0xFFFF else 0x0000 :=
  if_congr h rfl rfl

theorem flagWord_decide_eq (a b : Word) :
    flagWord (decide (a = b)) = if a.toNat = b.toNat then 0xFFFF else 0x0000 :=
  flagWord_eq_ite (decide_eq_true_iff.trans BitVec.toNat_inj.symm)

theorem flagWord_ult (a b : Word) :
    flagWord (BitVec.ult a b) = if a.toNat < b.toNat then 0xFFFF else 0x0000 :=
  flagWord_eq_ite BitVec.ult_iff_toNat_lt

theorem flagWord_ule (a b : Word) :
    flagWord (BitVec.ule a b) = if a.toNat ≤ b.toNat then 0xFFFF else 0x0000 :=
  flagWord_eq_ite BitVec.ule_iff_toNat_le

/-! ### `eq`, `lt` and `le` -/

theorem exec_eq (s : State) : exec .eq s = .next (binaryOp (fun a b => flagWord (decide (a = b))) s) := rfl

theorem exec_lt (s : State) : exec .lt s = .next (binaryOp (fun a b => flagWord (BitVec.ult a b)) s) := rfl

theorem exec_le (s : State) : exec .le s = .next (binaryOp (fun a b => flagWord (BitVec.ule a b)) s) := rfl

/-- Settles O37: the two-operand frame with the flag of a comparison of the two words read as unsigned numbers. -/
theorem comparisonsEffect : Obligations.ComparisonsEffect := by
  refine ⟨rfl, rfl, rfl, fun s => ⟨?_, ?_, ?_⟩⟩
  · rw [exec_eq, binaryOp_eq_dataWord, flagWord_decide_eq]
  · rw [exec_lt, binaryOp_eq_dataWord, flagWord_ult]
  · rw [exec_le, binaryOp_eq_dataWord, flagWord_ule]

end Sys2Proof.Machine
end

section
/-! SUPPORT. The decoder by the shape of its bytes, the first word and the length of every instruction (spec 30_encoding.md R80
to R86), and with them the obligations on decoding, on the length of an instruction and on the operand form. -/

namespace Sys2Proof

/-! ### The first word and the length of every instruction -/

/-- The family `FirstWord`, over all instructions. -/
theorem firstWord_statement : ∀ i : Instr, Laws.FirstWord.Statement i
  | .nop => Laws.FirstWord.nop
  | .pushLiteral imm => Laws.FirstWord.pushLiteral imm
  | .drop => Laws.FirstWord.drop
  | .dup => Laws.FirstWord.dup
  | .swap => Laws.FirstWord.swap
  | .overWord => Laws.FirstWord.overWord
  | .rot => Laws.FirstWord.rot
  | .toReturn => Laws.FirstWord.toReturn
  | .fromReturn => Laws.FirstWord.fromReturn
  | .loadByte => Laws.FirstWord.loadByte
  | .loadWord => Laws.FirstWord.loadWord
  | .storeByte => Laws.FirstWord.storeByte
  | .storeWord => Laws.FirstWord.storeWord
  | .jump => Laws.FirstWord.jump
  | .jumpIfZero => Laws.FirstWord.jumpIfZero
  | .jumpIfNonzero => Laws.FirstWord.jumpIfNonzero
  | .add => Laws.FirstWord.add
  | .sub => Laws.FirstWord.sub
  | .mul => Laws.FirstWord.mul
  | .div => Laws.FirstWord.div
  | .mod => Laws.FirstWord.mod
  | .and => Laws.FirstWord.and
  | .or => Laws.FirstWord.or
  | .xor => Laws.FirstWord.xor
  | .not => Laws.FirstWord.not
  | .shl => Laws.FirstWord.shl
  | .shr => Laws.FirstWord.shr
  | .eq => Laws.FirstWord.eq
  | .lt => Laws.FirstWord.lt
  | .le => Laws.FirstWord.le
  | .callIndirect => Laws.FirstWord.callIndirect
  | .ret => Laws.FirstWord.ret
  | .call target => Laws.FirstWord.call target

/-- R83: only `push-literal` has a second word. -/
theorem length_encode (i : Instr) : (encode i).length = instrLength i := by
  cases i <;> rfl

/-- An instruction that is one whole word is two bytes long (R83). -/
theorem instrLength_of_encodeWords_singleton {i : Instr} {w : Word} (h : encodeWords i = [w]) : instrLength i = 2 := by
  rw [← length_encode, encode, h]
  rfl

/-- Only 0x0001 has a literal after it (R81). -/
theorem decodeFirst_eq_literalFollows_iff {w : Word} : decodeFirst w = .literalFollows ↔ w = 0x0001 := by
  constructor
  · intro hlit
    rcases decodeFirst_spec w with ⟨_, hw⟩ | ⟨i, hwhole, _⟩
    · exact hw
    · cases hlit.symm.trans hwhole
  · rintro rfl
    rfl

/-- A word that is a whole instruction is not 0x0001. -/
theorem ne_one_of_decodeFirst_whole {w : Word} {i : Instr} (h : decodeFirst w = .whole i) : w ≠ 0x0001 := by
  intro hw
  cases h.symm.trans (decodeFirst_eq_literalFollows_iff.mpr hw)

/-! ### Decoding by the shape of the bytes -/

theorem decode_of_whole {h l : Byte} {i : Instr} (hw : decodeFirst (wordOfBytes h l) = .whole i) (rest : List Byte) :
    decode (h :: l :: rest) = .ok (i, rest) := by
  simp only [decode, hw]

theorem decode_of_literal {h l : Byte} (hw : decodeFirst (wordOfBytes h l) = .literalFollows) (h2 l2 : Byte)
    (rest : List Byte) : decode (h :: l :: h2 :: l2 :: rest) = .ok (.pushLiteral (wordOfBytes h2 l2), rest) := by
  simp only [decode, hw]

/-- Settles O12: the first word decodes to the instruction, or to `push-literal` with the second word as its literal. -/
theorem decodeReadsBackEveryEncoding : Obligations.DecodeReadsBackEveryEncoding := by
  intro i rest hwf
  obtain ⟨w, ws, henc, ⟨hw, rfl⟩ | ⟨v, rfl, hw, rfl⟩⟩ := firstWord_statement i hwf
  · rw [← wordOfBytes_hiByte_loByte w] at hw
    rw [encode, henc]
    exact decode_of_whole hw rest
  · rw [← wordOfBytes_hiByte_loByte w] at hw
    calc decode (encode (.pushLiteral v) ++ rest)
      _ = decode (hiByte w :: loByte w :: hiByte v :: loByte v :: rest) := by rw [encode, henc]; rfl
      _ = .ok (.pushLiteral (wordOfBytes (hiByte v) (loByte v)), rest) := decode_of_literal hw _ _ rest
      _ = .ok (.pushLiteral v, rest) := by rw [wordOfBytes_hiByte_loByte]

/-- The bytes of one word. -/
theorem bytesOfWords_wordOfBytes (h l : Byte) (ws : List Word) :
    bytesOfWords (wordOfBytes h l :: ws) = h :: l :: bytesOfWords ws := by
  rw [bytesOfWords, hiByte_wordOfBytes, loByte_wordOfBytes]

/-- The bytes of 0x0001. -/
theorem bytes_of_wordOfBytes_eq_one {h l : Byte} (hw : wordOfBytes h l = 0x0001) : h = 0x00 ∧ l = 0x01 := by
  constructor
  · rw [← hiByte_wordOfBytes h l, hw]; rfl
  · rw [← loByte_wordOfBytes h l, hw]; rfl

/-- What bytes that decode are: one whole word and the rest, or 0x0001, a literal and the rest (R80, R81). -/
theorem decode_ok_cases {bytes rest : List Byte} {i : Instr} (h : decode bytes = .ok (i, rest)) :
    (∃ hi lo, bytes = hi :: lo :: rest ∧ decodeFirst (wordOfBytes hi lo) = .whole i) ∨
    ∃ hi lo, bytes = 0x00 :: 0x01 :: hi :: lo :: rest ∧ i = .pushLiteral (wordOfBytes hi lo) := by
  rcases bytes with _ | ⟨hi, _ | ⟨lo, tail⟩⟩
  · cases h
  · cases h
  · cases hw : decodeFirst (wordOfBytes hi lo) with
    | whole j =>
      cases (decode_of_whole hw tail).symm.trans h
      exact .inl ⟨hi, lo, rfl, hw⟩
    | literalFollows =>
      obtain ⟨rfl, rfl⟩ := bytes_of_wordOfBytes_eq_one (decodeFirst_eq_literalFollows_iff.mp hw)
      rcases tail with _ | ⟨hi2, _ | ⟨lo2, tail⟩⟩
      · cases h
      · cases h
      · cases (decode_of_literal hw hi2 lo2 tail).symm.trans h
        exact .inr ⟨hi2, lo2, rfl, rfl⟩

/-- Bytes fail to decode only when they end too soon (R86). -/
theorem length_lt_of_decode_error {bytes : List Byte} {e : DecodeError} (h : decode bytes = .error e) :
    bytes.length < 2 ∨ (bytes.length < 4 ∧ bytes.take 2 = [0x00, 0x01]) := by
  rcases bytes with _ | ⟨hi, _ | ⟨lo, tail⟩⟩
  · exact .inl (by simp)
  · exact .inl (by simp)
  · cases hw : decodeFirst (wordOfBytes hi lo) with
    | whole j => cases (decode_of_whole hw tail).symm.trans h
    | literalFollows =>
      obtain ⟨rfl, rfl⟩ := bytes_of_wordOfBytes_eq_one (decodeFirst_eq_literalFollows_iff.mp hw)
      rcases tail with _ | ⟨hi2, _ | ⟨lo2, tail⟩⟩
      · exact .inr ⟨by simp, rfl⟩
      · exact .inr ⟨by simp, rfl⟩
      · cases (decode_of_literal hw hi2 lo2 tail).symm.trans h

/-- Settles O13: the two shapes of bytes that decode, each the encoding of its instruction. -/
theorem decodedBytesAreTheEncoding : Obligations.DecodedBytesAreTheEncoding := by
  refine fun bytes => ⟨fun i rest hok => ?_, fun e => length_lt_of_decode_error⟩
  obtain ⟨hi, lo, rfl, hw⟩ | ⟨hi, lo, rfl, rfl⟩ := decode_ok_cases hok
  · obtain ⟨hwf, henc⟩ := wellFormed_and_encodeWords_of_decodeFirst_whole hw
    exact ⟨hwf, by rw [encode, henc, bytesOfWords_wordOfBytes]; rfl⟩
  · refine ⟨rfl, ?_⟩
    rw [encode, encodeWords, bytesOfWords, bytesOfWords_wordOfBytes]
    rfl

/-- Settles O14: 0x0001 begins a `push-literal`, every other word is its instruction's whole encoding. -/
theorem firstWordGivesLength : Obligations.FirstWordGivesLength := by
  refine fun w imm => ⟨?_, length_encode _⟩
  cases h : decodeFirst w with
  | literalFollows => rw [if_pos (decodeFirst_eq_literalFollows_iff.mp h)]; rfl
  | whole i =>
    rw [if_neg (ne_one_of_decodeFirst_whole h)]
    exact instrLength_of_encodeWords_singleton (wellFormed_and_encodeWords_of_decodeFirst_whole h).2

/-- Settles O9: nine words of the opcode map, evaluated. -/
theorem specWordsDecodeToTheirInstructions : Obligations.SpecWordsDecodeToTheirInstructions :=
  ⟨rfl, rfl, rfl, rfl, rfl, rfl, rfl, rfl, rfl⟩

/-! ### The operand form -/

/-- A numeral in range is its own value (R88). -/
theorem operandValue_num (labels : List (String × Nat)) {v : Nat} (hv : v < 65536) :
    operandValue labels (.num v) = some (u16 v) := by
  rw [operandValue, if_pos hv]

/-- Settles O15: the value of a numeral, put into the expansions of R89. -/
theorem operandFormExpandsToPushLiteral : Obligations.OperandFormExpandsToPushLiteral := by
  intro i v hv _
  have hexpand : expandStatement [] (.withOperand i (.num v)) = some [.pushLiteral (u16 v), i] := by
    rw [expandStatement, operandValue_num [] hv, Option.map_some]
  refine ⟨?_, hexpand, ?_⟩
  · rw [expandStatement, operandValue_num [] hv, Option.map_some]
  · calc statementWords [] (.withOperand i (.num v))
      _ = (expandStatement [] (.withOperand i (.num v))).map fun is => is.flatMap encodeWords := rfl
      _ = some ([.pushLiteral (u16 v), i].flatMap encodeWords) := by rw [hexpand, Option.map_some]
      _ = some (0x0001 :: u16 v :: encodeWords i) := by simp [encodeWords]

end Sys2Proof
end

section
/-! SUPPORT. The opcode map as a partition of the words (spec 30_encoding.md R87): a primitive row is one word below 0x0020, a
call row the words with one highest set bit. -/

namespace Sys2Proof

/-- The call row of the words whose highest set bit is `k`. -/
def callRow (k : Nat) : OpcodeRow := ⟨"call", BitVec.allOnes 16 <<< k, 1#16 <<< k⟩

/-- The places of the highest set bit of a call word, in the order of the rows. -/
def callBits : List Nat := [15, 14, 13, 12, 11, 10, 9, 8, 7, 6, 5]

theorem callRows_eq_map : callRows = callBits.map callRow := by decide

/-- A word matches a call row when its highest set bit is the row's. -/
theorem rowMatches_callRow {w : Word} (hw : w.toNat ≠ 0) {k : Nat} (hk : k < 16) :
    rowMatches w (callRow k) = decide (w.toNat.log2 = k) := by
  have hpow : 2 ^ k < 65536 := Nat.pow_lt_pow_right (by omega) hk
  have hle : w.toNat / 2 ^ k * 2 ^ k ≤ w.toNat := Nat.div_mul_le_self _ _
  have hlt := w.isLt
  have hmask : (w &&& (callRow k).mask).toNat = w.toNat / 2 ^ k * 2 ^ k := by
    rw [callRow, ← BitVec.shiftLeft_ushiftRight, BitVec.toNat_shiftLeft, BitVec.toNat_ushiftRight, Nat.shiftLeft_eq,
      Nat.shiftRight_eq_div_pow, Nat.mod_eq_of_lt (by omega)]
  have hpattern : (callRow k).pattern.toNat = 1 * 2 ^ k := by
    rw [callRow, BitVec.toNat_shiftLeft, Nat.shiftLeft_eq, BitVec.toNat_ofNat, Nat.mod_eq_of_lt (by omega)]
  have hdiv : w.toNat / 2 ^ k = 1 ↔ w.toNat.log2 = k := by
    rw [Nat.log2_eq_iff hw, Nat.div_eq_iff (by positivity), Nat.pow_succ]
    omega
  rw [rowMatches, Bool.eq_iff_iff, beq_iff_eq, decide_eq_true_iff, ← BitVec.toNat_inj, hmask, hpattern,
    Nat.mul_left_inj (by positivity), hdiv]

/-- Each primitive row is one word below 0x0020. -/
theorem primitiveRows_spec : ∀ row ∈ primitiveRows, row.mask = BitVec.allOnes 16 ∧ row.pattern.toNat < 0x0020 := by decide

/-- No call word matches a primitive row (R82). -/
theorem filter_primitiveRows_of_call {w : Word} (hw : 0x0020 ≤ w.toNat) : primitiveRows.filter (rowMatches w) = [] := by
  rw [List.filter_eq_nil_iff]
  intro row hrow hmatch
  obtain ⟨hmask, hpattern⟩ := primitiveRows_spec row hrow
  rw [rowMatches, hmask, BitVec.and_allOnes, beq_iff_eq] at hmatch
  rw [hmatch] at hw
  omega

/-- A call word matches the call row of its highest set bit and no other. -/
theorem filter_callRows_of_call {w : Word} (hw : 0x0020 ≤ w.toNat) :
    callRows.filter (rowMatches w) = [callRow w.toNat.log2] := by
  have hbounds : 5 ≤ w.toNat.log2 ∧ w.toNat.log2 < 16 :=
    ⟨(Nat.le_log2 (by omega)).mpr hw, (Nat.log2_lt (by omega)).mpr w.isLt⟩
  have hbits : ∀ n < 16, 5 ≤ n → callBits.filter (fun k => decide (n = k)) = [n] := by decide
  have hlow : ∀ k ∈ callBits, k < 16 := by decide
  have hcongr : callBits.filter (rowMatches w ∘ callRow) = callBits.filter (fun k => decide (w.toNat.log2 = k)) :=
    List.filter_congr fun k hk => rowMatches_callRow (by omega) (hlow k hk)
  rw [callRows_eq_map, List.filter_map, hcongr, hbits _ hbounds.2 hbounds.1, List.map_singleton]

/-- A word below 0x0020 matches the row of its mnemonic and no other. -/
theorem filter_opcodeRows_of_primitive (imm : Word) (k : Fin 32) :
    ∃ row, opcodeRows.filter (rowMatches (BitVec.ofNat 16 k)) = [row] ∧
      mnemonic (firstWordInstr imm (decodeFirst (BitVec.ofNat 16 k))) = row.mnemonic := by
  fin_cases k <;> exact ⟨_, rfl, rfl⟩

/-- Settles O11: the words below 0x0020 one by one, the calls by their highest set bit. -/
theorem opcodeRowsPartitionTheWords : Obligations.OpcodeRowsPartitionTheWords := by
  refine ⟨rfl, fun w imm => ?_⟩
  by_cases hw : 0x0020 ≤ w.toNat
  · refine ⟨callRow w.toNat.log2, ?_, ?_⟩
    · rw [opcodeRows, List.filter_append, filter_primitiveRows_of_call hw, filter_callRows_of_call hw, List.nil_append]
    · rw [decodeFirst_call hw]
      rfl
  · have hrow := filter_opcodeRows_of_primitive imm ⟨w.toNat, by omega⟩
    rwa [BitVec.ofNat_toNat, BitVec.setWidth_eq] at hrow

end Sys2Proof
end

section
/-! SUPPORT. Words and bytes read back after writes (spec 20_memory.md R52 to R57), runs of pushes and pops as words in memory
(10_state.md R35), and with them the obligations on memory and on the order of the two stacks. -/

namespace Sys2Proof.Machine

/-! ### Memory -/

/-- Settles O1: a word and a byte read after their writes, the word's two bytes at the edge of memory. -/
theorem readAfterWriteGivesValueWritten : Obligations.ReadAfterWriteGivesValueWritten := by
  intro m x v b hm
  refine ⟨readWord_writeWord hm x v, ?_, ?_, ?_⟩
  · rw [readByte_writeWord hm, if_pos rfl]
  · rw [readByte_writeWord hm, if_neg (by decide)]
    exact if_pos rfl
  · rw [readByte_writeByte hm, if_pos rfl]

/-- The two byte writes of a word write may be done in either order (R55). -/
theorem writeWord_eq_low_then_high {m : Memory} (hm : m.wf = true) (a v : Word) :
    writeWord m a v = writeByte (writeByte m (a + 1) (loByte v)) a (hiByte v) :=
  memory_ext (writeWord_wf hm a v) (writeByte_wf (writeByte_wf hm _ _) _ _) fun b => by
    rw [readByte_writeWord hm, readByte_writeByte (writeByte_wf hm _ _), readByte_writeByte hm]

/-- Settles O4: what a byte reads after a word write, and the other order of the two byte writes. -/
theorem wordWriteChangesTwoCells : Obligations.WordWriteChangesTwoCells := by
  intro m a x v hm
  refine ⟨?_, writeWord_eq_low_then_high hm a v⟩
  rw [readByte_writeWord hm, hiByte_eq_u8, loByte_eq_u8, address_add_one]

/-- Settles O5: writes keep the canonical form, in which the bytes determine the data. -/
theorem canonicalMemoryIsKeptAndUnique : Obligations.CanonicalMemoryIsKeptAndUnique :=
  fun _ a v b hm => ⟨writeByte_wf hm a b, writeWord_wf hm a v, fun _ hn => memory_ext hm hn⟩

/-! ### Runs of pushes and pops, on a stack given by its pointer -/

/-- The memory after pushes of a list of words, the first one first, from a pointer. -/
def pushWords : List Word → Word → Memory → Memory
  | [], _, m => m
  | v :: vs, p, m => pushWords vs (p - 2) (writeWord m p v)

/-- The words that `n` pops give, in the order they are popped, from a pointer. -/
def popWords : Nat → Word → Memory → List Word
  | 0, _, _ => []
  | n + 1, p, m => readWord m (p + 2) :: popWords n (p + 2) m

theorem pointer_zero_words (p : Word) : p - u16 (2 * 0) = p ∧ p + u16 (2 * 0) = p := ⟨BitVec.sub_zero p, BitVec.add_zero p⟩

theorem u16_add (a b : Nat) : u16 (a + b) = u16 a + u16 b := BitVec.ofNat_add a b

/-- One push more. -/
theorem pointer_push_words (p : Word) (n : Nat) : p - 2 - u16 (2 * n) = p - u16 (2 * (n + 1)) := by
  rw [Nat.mul_add, u16_add, BitVec.sub_sub, BitVec.add_comm]
  rfl

/-- One pop more. -/
theorem pointer_pop_words (p : Word) (n : Nat) : p + 2 + u16 (2 * n) = p + u16 (2 * (n + 1)) := by
  rw [Nat.mul_add, u16_add, BitVec.add_assoc, BitVec.add_comm (u16 (2 * n))]
  rfl

theorem pushAllD_eq (vs : List Word) (s : State) :
    pushAllD vs s = { s with mem := pushWords vs s.sp s.mem, sp := s.sp - u16 (2 * vs.length) } := by
  induction vs generalizing s with
  | nil => rw [List.length_nil, (pointer_zero_words s.sp).1]; rfl
  | cons v vs ih =>
    rw [List.length_cons, ← pointer_push_words]
    exact ih (pushD v s)

theorem pushAllR_eq (vs : List Word) (s : State) :
    pushAllR vs s = { s with mem := pushWords vs s.rp s.mem, rp := s.rp - u16 (2 * vs.length) } := by
  induction vs generalizing s with
  | nil => rw [List.length_nil, (pointer_zero_words s.rp).1]; rfl
  | cons v vs ih =>
    rw [List.length_cons, ← pointer_push_words]
    exact ih (pushR v s)

theorem popManyD_eq (n : Nat) (s : State) :
    popManyD n s = (popWords n s.sp s.mem, { s with sp := s.sp + u16 (2 * n) }) := by
  induction n generalizing s with
  | zero => rw [(pointer_zero_words s.sp).2]; rfl
  | succ n ih =>
    rw [popManyD, ih (popD s).2, ← pointer_pop_words]
    rfl

theorem popManyR_eq (n : Nat) (s : State) :
    popManyR n s = (popWords n s.rp s.mem, { s with rp := s.rp + u16 (2 * n) }) := by
  induction n generalizing s with
  | zero => rw [(pointer_zero_words s.rp).2]; rfl
  | succ n ih =>
    rw [popManyR, ih (popR s).2, ← pointer_pop_words]
    rfl

/-- The last of `n + 1` pops. -/
theorem popWords_succ_last (n : Nat) (p : Word) (m : Memory) :
    popWords (n + 1) p m = popWords n p m ++ [readWord m (p + u16 (2 * n) + 2)] := by
  induction n generalizing p with
  | zero => rw [(pointer_zero_words p).2]; rfl
  | succ n ih =>
    rw [popWords, ih (p + 2), pointer_pop_words]
    rfl

/-- Pushes leave a word so far above the pointer that they do not come round to it. -/
theorem readWord_pushWords_of_above {vs : List Word} {m : Memory} {p q : Word} (hm : m.wf = true) (hlow : 2 ≤ (q - p).toNat)
    (hhigh : (q - p).toNat + 2 * vs.length ≤ 65536) : readWord (pushWords vs p m) q = readWord m q := by
  induction vs generalizing m p with
  | nil => rfl
  | cons v vs ih =>
    rw [List.length_cons] at hhigh
    have hkept : readWord (writeWord m p v) q = readWord m q :=
      readWord_writeWord_of_apart hm v (by bv_omega) (by bv_omega) (by bv_omega)
    by_cases hlast : vs.length = 0
    · rw [List.length_eq_zero_iff.mp hlast]
      exact hkept
    · rw [pushWords, ih (writeWord_wf hm p v) (by bv_omega) (by bv_omega), hkept]

/-- R35 on one stack: the words popped after a run of pushes are those pushed, the last one first. -/
theorem popWords_pushWords {vs : List Word} {m : Memory} {p : Word} (hm : m.wf = true) (hlen : vs.length ≤ 32768) :
    popWords vs.length (p - u16 (2 * vs.length)) (pushWords vs p m) = vs.reverse := by
  induction vs generalizing m p with
  | nil => rfl
  | cons v vs ih =>
    rw [List.length_cons] at hlen
    have hbottom : p - 2 - u16 (2 * vs.length) + u16 (2 * vs.length) + 2 = p := by
      rw [BitVec.sub_add_cancel, slot_push_pop]
    have hfirst : readWord (pushWords vs (p - 2) (writeWord m p v)) p = v := by
      rw [readWord_pushWords_of_above (writeWord_wf hm p v) (by bv_omega) (by bv_omega), readWord_writeWord hm]
    rw [List.length_cons, ← pointer_push_words, popWords_succ_last, hbottom, pushWords,
      ih (writeWord_wf hm p v) (by omega), hfirst, List.reverse_cons]

/-- Settles O8: a run of pushes and one of pops on either stack, as runs on a pointer and the memory. -/
theorem pushedWordsPopLastInFirstOut : Obligations.PushedWordsPopLastInFirstOut := by
  intro vs s hm hlen
  rw [pushAllD_eq, pushAllR_eq, popManyD_eq, popManyR_eq]
  refine ⟨popWords_pushWords hm hlen, BitVec.sub_add_cancel _ _, popWords_pushWords hm hlen, BitVec.sub_add_cancel _ _,
    fun hfull => ?_⟩
  rw [hfull]
  exact ⟨BitVec.sub_zero s.sp, BitVec.sub_zero s.rp⟩

end Sys2Proof.Machine
end

section
/-! SUPPORT. The stack instructions that permute the top words or move one between the stacks (spec 41_stack.md), division and
the shifts (44_arith_logic.md), each in net effect, and with them the obligations on their effect. -/

namespace Sys2Proof.Machine

/-! ### `swap` and `rot` -/

/-- `swap` writes the top word below and the word below on top (R124). -/
theorem exec_swap (s : State) :
    exec .swap s = .next
      { s with mem := writeWord (writeWord s.mem (s.sp + 4) (dataWord s 2)) (s.sp + 2) (dataWord s 4) } := by
  simp only [exec, execSwap, popD, pushD, slot_pop_pop, slot_four_push, slot_pop_push, dataWord]

/-- `rot` writes the third word on top and the other two one place lower (R126). -/
theorem exec_rot (s : State) :
    exec .rot s = .next
      { s with
        mem := writeWord (writeWord (writeWord s.mem (s.sp + 6) (dataWord s 4)) (s.sp + 4) (dataWord s 2)) (s.sp + 2)
          (dataWord s 6) } := by
  simp only [exec, execRot, popD, pushD, slot_pop_pop, slot_four_pop, slot_six_push, slot_four_push, slot_pop_push, dataWord]

/-- A memory with the top three words of the stack at `p` replaced: the third, the second and the top one. -/
def writeTopThree (m : Memory) (p third second top : Word) : Memory :=
  writeWord (writeWord (writeWord m (p + 6) third) (p + 4) second) (p + 2) top

theorem writeTopThree_wf {m : Memory} (hm : m.wf = true) (p x y z : Word) : (writeTopThree m p x y z).wf = true :=
  writeWord_wf (writeWord_wf (writeWord_wf hm _ _) _ _) _ _

theorem readWord_writeTopThree {m : Memory} (hm : m.wf = true) (p third second top : Word) :
    readWord (writeTopThree m p third second top) (p + 6) = third ∧
    readWord (writeTopThree m p third second top) (p + 4) = second ∧
    readWord (writeTopThree m p third second top) (p + 2) = top := by
  have h6 := writeWord_wf hm (p + 6) third
  have h4 := writeWord_wf h6 (p + 4) second
  refine ⟨?_, ?_, readWord_writeWord h4 _ _⟩
  · rw [writeTopThree, readWord_writeWord_of_apart h4 top (by bv_omega) (by bv_omega) (by bv_omega),
      readWord_writeWord_of_apart h6 second (by bv_omega) (by bv_omega) (by bv_omega), readWord_writeWord hm]
  · rw [writeTopThree, readWord_writeWord_of_apart h4 top (by bv_omega) (by bv_omega) (by bv_omega), readWord_writeWord h6]

/-- Writing the top three words hides an earlier write of them. -/
theorem writeTopThree_writeTopThree {m : Memory} (hm : m.wf = true) (p x y z x' y' z' : Word) :
    writeTopThree (writeTopThree m p x y z) p x' y' z' = writeTopThree m p x' y' z' := by
  have h6 := writeWord_wf hm (p + 6) x
  have h4 := writeWord_wf h6 (p + 4) y
  have h2 := writeTopThree_wf hm p x y z
  refine memory_ext (writeTopThree_wf h2 _ _ _ _) (writeTopThree_wf hm _ _ _ _) fun b => ?_
  rw [writeTopThree, readByte_writeWord (writeWord_wf (writeWord_wf h2 _ _) _ _), readByte_writeWord (writeWord_wf h2 _ _),
    readByte_writeWord h2, writeTopThree, readByte_writeWord h4, readByte_writeWord h6, readByte_writeWord hm,
    writeTopThree, readByte_writeWord (writeWord_wf (writeWord_wf hm _ _) _ _), readByte_writeWord (writeWord_wf hm _ _),
    readByte_writeWord hm]
  split_ifs <;> rfl

/-- Writing the top three words as they are changes nothing. -/
theorem writeTopThree_readWord {m : Memory} (hm : m.wf = true) (p : Word) :
    writeTopThree m p (readWord m (p + 6)) (readWord m (p + 4)) (readWord m (p + 2)) = m := by
  rw [writeTopThree, writeWord_readWord hm, writeWord_readWord hm, writeWord_readWord hm]

/-- A state with the top three words of the data stack replaced. -/
def withTopThree (s : State) (third second top : Word) : State :=
  { s with mem := writeTopThree s.mem s.sp third second top }

theorem dataWord_withTopThree {s : State} (hs : s.mem.wf = true) (third second top : Word) :
    dataWord (withTopThree s third second top) 6 = third ∧ dataWord (withTopThree s third second top) 4 = second ∧
    dataWord (withTopThree s third second top) 2 = top :=
  readWord_writeTopThree hs s.sp third second top

theorem withTopThree_withTopThree {s : State} (hs : s.mem.wf = true) (x y z x' y' z' : Word) :
    withTopThree (withTopThree s x y z) x' y' z' = withTopThree s x' y' z' := by
  rw [withTopThree, withTopThree, writeTopThree_writeTopThree hs, withTopThree]

theorem withTopThree_dataWord {s : State} (hs : s.mem.wf = true) :
    withTopThree s (dataWord s 6) (dataWord s 4) (dataWord s 2) = s := by
  rw [withTopThree, dataWord, dataWord, dataWord, writeTopThree_readWord hs]

/-- `swap` leaves the third word as it is. -/
theorem exec_swap_eq_withTopThree {s : State} (hs : s.mem.wf = true) :
    exec .swap s = .next (withTopThree s (dataWord s 6) (dataWord s 2) (dataWord s 4)) := by
  have hthird : writeWord s.mem (s.sp + 6) (dataWord s 6) = s.mem := writeWord_readWord hs _
  rw [exec_swap, withTopThree, writeTopThree, hthird]

theorem exec_swap_withTopThree {s : State} (hs : s.mem.wf = true) (x y z : Word) :
    exec .swap (withTopThree s x y z) = .next (withTopThree s x z y) := by
  have ht : (withTopThree s x y z).mem.wf = true := writeTopThree_wf hs s.sp x y z
  obtain ⟨h6, h4, h2⟩ := dataWord_withTopThree hs x y z
  rw [exec_swap_eq_withTopThree ht, h6, h4, h2, withTopThree_withTopThree hs]

theorem exec_rot_eq_withTopThree (s : State) :
    exec .rot s = .next (withTopThree s (dataWord s 4) (dataWord s 2) (dataWord s 6)) := exec_rot s

theorem exec_rot_withTopThree {s : State} (hs : s.mem.wf = true) (x y z : Word) :
    exec .rot (withTopThree s x y z) = .next (withTopThree s y z x) := by
  obtain ⟨h6, h4, h2⟩ := dataWord_withTopThree hs x y z
  rw [exec_rot_eq_withTopThree, h6, h4, h2, withTopThree_withTopThree hs]

/-- Settles O25: the net effects, and the permutations they make of the top three words, whose square or cube is trivial. -/
theorem swapAndRotNetEffect : Obligations.SwapAndRotNetEffect := by
  refine ⟨rfl, rfl, fun s hs => ⟨exec_swap s, exec_rot s, ?_, ?_⟩⟩
  · have hswap := exec_swap_withTopThree hs (dataWord s 6) (dataWord s 4) (dataWord s 2)
    have hback := exec_swap_withTopThree hs (dataWord s 6) (dataWord s 2) (dataWord s 4)
    rw [withTopThree_dataWord hs] at hswap hback
    exact ⟨_, hswap, hback⟩
  · have h1 := exec_rot_withTopThree hs (dataWord s 6) (dataWord s 4) (dataWord s 2)
    have h2 := exec_rot_withTopThree hs (dataWord s 4) (dataWord s 2) (dataWord s 6)
    have h3 := exec_rot_withTopThree hs (dataWord s 2) (dataWord s 6) (dataWord s 4)
    rw [withTopThree_dataWord hs] at h1 h3
    exact ⟨_, _, h1, h2, h3⟩

/-! ### `to-return`, `from-return`, and `dup` then `drop` -/

/-- `to-return` moves the top word to the return stack (R127). -/
theorem exec_toReturn (s : State) : exec .toReturn s = .next (pushR (popD s).1 (popD s).2) := rfl

/-- `from-return` moves the top word of the return stack to the data stack (R128). -/
theorem exec_fromReturn (s : State) : exec .fromReturn s = .next (pushD (popR s).1 (popR s).2) := rfl

/-- `from-return` after the push of a word on the return stack pushes that word on the data stack. -/
theorem exec_fromReturn_pushR {s : State} (hs : s.mem.wf = true) (v : Word) :
    exec .fromReturn (pushR v s) = .next (pushD v { s with mem := writeWord s.mem s.rp v }) := by
  rw [exec_fromReturn, popR_pushR hs]

/-- Settles O26: a pop of one stack and a push on the other, and the pop that undoes the push. -/
theorem returnStackMovesEffect : Obligations.ReturnStackMovesEffect := by
  refine ⟨rfl, rfl, fun s => ⟨rfl, rfl, fun hs => ?_⟩⟩
  have hpopped : (popD s).2.mem.wf = true := hs
  have hpushed : (writeWord s.mem s.rp (dataWord s 2)).wf = true := writeWord_wf hs _ _
  refine ⟨_, _, exec_toReturn s, exec_fromReturn_pushR hpopped _, slot_pop_push s.sp, rfl, ?_⟩
  rw [dataWord, pushD_sp, slot_push_pop, pushD_mem]
  exact readWord_writeWord hpushed _ _

/-- Settles O27: `dup` is one push, and the pop after it leaves the word pushed in memory. -/
theorem dupThenDropLeavesOnlyACopy : Obligations.DupThenDropLeavesOnlyACopy := by
  intro s hs
  have hdrop : exec .drop (pushD (dataWord s 2) s) = .next { s with mem := writeWord s.mem s.sp (dataWord s 2) } := by
    rw [exec_drop, popD_pushD hs]
  refine ⟨_, _, exec_dup_eq_pushD hs, hdrop, rfl, ?_, readWord_writeWord hs _ _, fun a ha => ?_⟩
  · exact readWord_writeWord_of_apart hs _ (by bv_omega) (by bv_omega) (by bv_omega)
  · obtain ⟨hne, hne1⟩ : a ≠ s.sp ∧ a ≠ s.sp + 1 := by simpa [wordCells] using ha
    rw [readByte_writeWord hs, if_neg hne, if_neg hne1]

/-! ### `div` and `mod`, `shl` and `shr` -/

theorem exec_div (s : State) :
    exec .div s = if dataWord s 2 = 0x0000 then .fault .divideByZero else .next (binaryOp (fun a b => BitVec.udiv a b) s) :=
  rfl

theorem exec_mod (s : State) :
    exec .mod s = if dataWord s 2 = 0x0000 then .fault .divideByZero else .next (binaryOp (fun a b => BitVec.umod a b) s) :=
  rfl

/-- The unsigned quotient (R174). -/
theorem udiv_eq_u16 (a b : Word) : BitVec.udiv a b = u16 (a.toNat / b.toNat) := BitVec.udiv_def

/-- The unsigned remainder (R175). -/
theorem umod_eq_u16 (a b : Word) : BitVec.umod a b = u16 (a.toNat % b.toNat) := BitVec.umod_def

/-- Settles O34: the two-operand frame with the quotient and the remainder, or the fault before any write. -/
theorem divModEffect : Obligations.DivModEffect := by
  refine ⟨rfl, rfl, fun s => ⟨fun hne => ⟨?_, ?_⟩, fun hzero => ⟨?_, ?_⟩⟩⟩
  · rw [exec_div, if_neg hne, binaryOp_eq_dataWord, udiv_eq_u16]
  · rw [exec_mod, if_neg hne, binaryOp_eq_dataWord, umod_eq_u16]
  · rw [exec_div, if_pos hzero]
  · rw [exec_mod, if_pos hzero]

theorem exec_shl (s : State) : exec .shl s = .next (binaryOp shiftLeft s) := rfl

theorem exec_shr (s : State) : exec .shr s = .next (binaryOp shiftRight s) := rfl

theorem shiftLeft_toNat (a b : Word) : (shiftLeft a b).toNat = a.toNat * 2 ^ b.toNat % 65536 := by
  rw [shiftLeft, BitVec.toNat_shiftLeft, Nat.shiftLeft_eq]

theorem shiftRight_toNat (a b : Word) : (shiftRight a b).toNat = a.toNat / 2 ^ b.toNat := by
  rw [shiftRight, BitVec.toNat_ushiftRight, Nat.shiftRight_eq_div_pow]

/-- Counts from 16 up shift every bit out (decision D5). -/
theorem shift_eq_zero_of_le {a b : Word} (hb : 16 ≤ b.toNat) : shiftLeft a b = 0x0000 ∧ shiftRight a b = 0x0000 :=
  ⟨BitVec.shiftLeft_eq_zero hb, BitVec.ushiftRight_eq_zero hb⟩

/-- Settles O36: the two-operand frame with a product and a quotient by a power of two. -/
theorem shiftsEffect : Obligations.ShiftsEffect := by
  refine ⟨rfl, rfl, fun s => ⟨shiftLeft (dataWord s 4) (dataWord s 2), shiftRight (dataWord s 4) (dataWord s 2), ?_, ?_,
    shiftLeft_toNat _ _, shiftRight_toNat _ _, shift_eq_zero_of_le⟩⟩
  · rw [exec_shl, binaryOp_eq_dataWord]
  · rw [exec_shr, binaryOp_eq_dataWord]

end Sys2Proof.Machine
end

section
/-! SUPPORT. What any instruction can do, said once: the fault of `div` and `mod`, or the next state, with the registers by the
stack pictures and the table of `pc`, and the memory by a list of cell writes (spec 30_encoding.md R85, 10_state.md R22, R36,
20_memory.md R60). With it the obligations on the frame of every instruction. -/

namespace Sys2Proof.Machine

/-! ### The pointers by the stack pictures -/

@[simp] theorem pointerAfter_balanced (p : Word) (n : Nat) : pointerAfter p (n, n) = p := BitVec.add_sub_cancel p _
@[simp] theorem pointerAfter_one_zero (p : Word) : pointerAfter p (1, 0) = p + 2 := BitVec.sub_zero _
@[simp] theorem pointerAfter_two_zero (p : Word) : pointerAfter p (2, 0) = p + 4 := BitVec.sub_zero _
@[simp] theorem pointerAfter_two_one (p : Word) : pointerAfter p (2, 1) = p + 2 := slot_four_push p
@[simp] theorem pointerAfter_zero_one (p : Word) : pointerAfter p (0, 1) = p - 2 := congrArg (· - 2) (BitVec.add_zero p)
@[simp] theorem pointerAfter_one_two (p : Word) : pointerAfter p (1, 2) = p - 2 := by
  simp only [pointerAfter, u16]; bv_omega
@[simp] theorem pointerAfter_two_three (p : Word) : pointerAfter p (2, 3) = p - 2 := by
  simp only [pointerAfter, u16]; bv_omega

/-! ### Lists of cell writes -/

/-- The writes of a list of cells, the first one first. -/
def writeCells (ws : List (Word × Byte)) (m : Memory) : Memory := ws.foldl (fun m w => writeByte m w.1 w.2) m

/-- The two cell writes of a word write (R55). -/
def wordWrites (a v : Word) : List (Word × Byte) := [(a, hiByte v), (a + 1, loByte v)]

@[simp] theorem writeCells_nil (m : Memory) : writeCells [] m = m := rfl

@[simp] theorem writeCells_singleton (a : Word) (b : Byte) (m : Memory) : writeCells [(a, b)] m = writeByte m a b := rfl

@[simp] theorem writeCells_wordWrites (a v : Word) (m : Memory) : writeCells (wordWrites a v) m = writeWord m a v := rfl

/-- A word write stores to the cells of the word. -/
@[simp] theorem map_fst_wordWrites (a v : Word) : (wordWrites a v).map Prod.fst = wordCells a := rfl

@[simp] theorem writeCells_append (ws ws' : List (Word × Byte)) (m : Memory) :
    writeCells (ws ++ ws') m = writeCells ws' (writeCells ws m) := List.foldl_append

theorem writeCells_wf {m : Memory} (hm : m.wf = true) (ws : List (Word × Byte)) : (writeCells ws m).wf = true := by
  induction ws generalizing m with
  | nil => exact hm
  | cons w ws ih => exact ih (writeByte_wf hm w.1 w.2)

/-- Cells outside the list keep their contents. -/
theorem readByte_writeCells_of_not_mem {m : Memory} (hm : m.wf = true) {ws : List (Word × Byte)} {a : Word}
    (ha : a ∉ ws.map Prod.fst) : readByte (writeCells ws m) a = readByte m a := by
  induction ws generalizing m with
  | nil => rfl
  | cons w ws ih =>
    obtain ⟨hne, hrest⟩ := not_or.mp (mt List.mem_cons.mpr ha)
    calc readByte (writeCells ws (writeByte m w.1 w.2)) a
      _ = readByte (writeByte m w.1 w.2) a := ih (writeByte_wf hm w.1 w.2) hrest
      _ = readByte m a := by rw [readByte_writeByte hm, if_neg hne]

/-- Memories that agree on a cell agree on it after the same writes. -/
theorem readByte_writeCells_congr {m n : Memory} (hm : m.wf = true) (hn : n.wf = true) (ws : List (Word × Byte)) {a : Word}
    (ha : readByte m a = readByte n a) : readByte (writeCells ws m) a = readByte (writeCells ws n) a := by
  induction ws generalizing m n with
  | nil => exact ha
  | cons w ws ih =>
    refine ih (writeByte_wf hm w.1 w.2) (writeByte_wf hn w.1 w.2) ?_
    rw [readByte_writeByte hm, readByte_writeByte hn, ha]

/-! ### The net effect of an instruction -/

/-- The cell writes that are the net effect of an instruction that does not fault (R120 to R193). -/
def netWrites (i : Instr) (s : State) : List (Word × Byte) :=
  match i with
  | .nop | .drop | .jump | .jumpIfZero | .jumpIfNonzero | .ret => []
  | .pushLiteral imm => wordWrites s.sp imm
  | .dup => wordWrites s.sp (dataWord s 2)
  | .overWord => wordWrites s.sp (dataWord s 4)
  | .fromReturn => wordWrites s.sp (readWord s.mem (s.rp + 2))
  | .swap => wordWrites (s.sp + 4) (dataWord s 2) ++ wordWrites (s.sp + 2) (dataWord s 4)
  | .rot =>
    wordWrites (s.sp + 6) (dataWord s 4) ++ wordWrites (s.sp + 4) (dataWord s 2) ++ wordWrites (s.sp + 2) (dataWord s 6)
  | .toReturn => wordWrites s.rp (dataWord s 2)
  | .callIndirect | .call _ => wordWrites s.rp s.pc
  | .loadByte => wordWrites (s.sp + 2) (u16 (readByte s.mem (dataWord s 2)).toNat)
  | .loadWord => wordWrites (s.sp + 2) (readWord s.mem (dataWord s 2))
  | .not => wordWrites (s.sp + 2) (~~~dataWord s 2)
  | .storeByte => [(dataWord s 2, loByte (dataWord s 4))]
  | .storeWord => wordWrites (dataWord s 2) (dataWord s 4)
  | .add => wordWrites (s.sp + 4) (dataWord s 4 + dataWord s 2)
  | .sub => wordWrites (s.sp + 4) (dataWord s 4 - dataWord s 2)
  | .mul => wordWrites (s.sp + 4) (dataWord s 4 * dataWord s 2)
  | .div => wordWrites (s.sp + 4) (BitVec.udiv (dataWord s 4) (dataWord s 2))
  | .mod => wordWrites (s.sp + 4) (BitVec.umod (dataWord s 4) (dataWord s 2))
  | .and => wordWrites (s.sp + 4) (dataWord s 4 &&& dataWord s 2)
  | .or => wordWrites (s.sp + 4) (dataWord s 4 ||| dataWord s 2)
  | .xor => wordWrites (s.sp + 4) (dataWord s 4 ^^^ dataWord s 2)
  | .shl => wordWrites (s.sp + 4) (shiftLeft (dataWord s 4) (dataWord s 2))
  | .shr => wordWrites (s.sp + 4) (shiftRight (dataWord s 4) (dataWord s 2))
  | .eq => wordWrites (s.sp + 4) (flagWord (decide (dataWord s 4 = dataWord s 2)))
  | .lt => wordWrites (s.sp + 4) (flagWord (BitVec.ult (dataWord s 4) (dataWord s 2)))
  | .le => wordWrites (s.sp + 4) (flagWord (BitVec.ule (dataWord s 4) (dataWord s 2)))

/-- The cells written are those of `storedCells`. -/
theorem mem_netWrites_iff (i : Instr) (s : State) (a : Word) :
    a ∈ (netWrites i s).map Prod.fst ↔ a ∈ storedCells i s := by
  cases i with
  | swap | rot =>
    simp only [netWrites, storedCells, List.map_append, map_fst_wordWrites, List.mem_append]
    tauto
  | _ => exact Iff.rfl

/-- The state after an instruction that does not fault, its memory aside: the pointers by the stack pictures, `pc` by R22. -/
def registersAfter (i : Instr) (s : State) (m : Memory) : State :=
  { s with
    mem := m
    sp := pointerAfter s.sp (dataPicture i)
    rp := pointerAfter s.rp (returnPicture i)
    pc := pcAfter i s }

/-- `div` and `mod` fault on a zero divisor (R202). -/
theorem exec_of_dividesByZero {i : Instr} {s : State} (h : DividesByZero i s) : exec i s = .fault .divideByZero := by
  obtain ⟨rfl | rfl, hzero⟩ := h
  · rw [exec_div, if_pos hzero]
  · rw [exec_mod, if_pos hzero]

/-- A divisor that is not zero makes `div` and `mod` like the other two-operand instructions. -/
theorem exec_divide_of_not_dividesByZero {s : State} (h : dataWord s 2 ≠ 0x0000) :
    exec .div s = .next (binaryOp (fun a b => BitVec.udiv a b) s) ∧
    exec .mod s = .next (binaryOp (fun a b => BitVec.umod a b) s) :=
  ⟨by rw [exec_div, if_neg h], by rw [exec_mod, if_neg h]⟩

theorem ite_toNat_eq_zero (w x y : Word) : (if w.toNat = 0 then x else y) = if w = 0x0000 then x else y :=
  if_congr (BitVec.toNat_inj (y := 0x0000)) rfl rfl

/-- Every instruction but `dup` and `over`, whose first pushes are undone pops only in a canonical memory, in its net effect. -/
theorem exec_eq_netWrites_of_not_copy {i : Instr} {s : State} (hzero : ¬ DividesByZero i s) (hdup : i ≠ .dup)
    (hover : i ≠ .overWord) : exec i s = .next (registersAfter i s (writeCells (netWrites i s) s.mem)) := by
  cases i with
  | dup => exact absurd rfl hdup
  | overWord => exact absurd rfl hover
  | nop | pushLiteral | drop | toReturn | fromReturn | jump | callIndirect | ret | call =>
    simp [exec_nop, exec_pushLiteral, exec_drop, exec_toReturn, exec_fromReturn, exec_jump, exec_callIndirect, exec_ret,
      exec_call, registersAfter, dataPicture, returnPicture, pcAfter, netWrites, pushD, popD, pushR, popR, setPc, dataWord]
  | swap | rot | loadByte | loadWord | storeByte | storeWord =>
    simp [exec_swap, exec_rot, exec_loadByte, exec_loadWord, exec_storeByte, exec_storeWord, registersAfter, dataPicture,
      returnPicture, pcAfter, netWrites]
  | jumpIfZero | jumpIfNonzero =>
    simp only [exec_jumpIfZero, exec_jumpIfNonzero, ite_toNat_eq_zero]
    simp [registersAfter, dataPicture, returnPicture, pcAfter, netWrites]
  | not => simp [exec_not, unaryOp_eq_dataWord, registersAfter, dataPicture, returnPicture, pcAfter, netWrites]
  | div | mod =>
    have hdivisor : dataWord s 2 ≠ 0x0000 := fun h => hzero ⟨by simp, h⟩
    simp [exec_divide_of_not_dividesByZero hdivisor, binaryOp_eq_dataWord, registersAfter, dataPicture, returnPicture,
      pcAfter, netWrites]
  | add | sub | mul | and | or | xor | shl | shr | eq | lt | le =>
    simp [exec_add, exec_sub, exec_mul, exec_and, exec_or, exec_xor, exec_shl, exec_shr, exec_eq, exec_lt, exec_le,
      binaryOp_eq_dataWord, registersAfter, dataPicture, returnPicture, pcAfter, netWrites]

/-- `dup` with both its pushes, in any memory (R123). -/
theorem exec_dup_eq_registersAfter (s : State) :
    exec .dup s = .next
      (registersAfter .dup s (writeWord (writeWord s.mem (s.sp + 2) (dataWord s 2)) s.sp (dataWord s 2))) := by
  simp only [exec, execDup, popD, pushD, slot_pop_push, dataWord, registersAfter, dataPicture, returnPicture,
    pointerAfter_one_two, pointerAfter_balanced, pcAfter]

/-- `over` with its three pushes, in any memory (R125). -/
theorem exec_overWord_eq_registersAfter (s : State) :
    exec .overWord s = .next
      (registersAfter .overWord s
        (writeWord (writeWord (writeWord s.mem (s.sp + 4) (dataWord s 4)) (s.sp + 2) (dataWord s 2)) s.sp
          (dataWord s 4))) := by
  simp only [exec, execOver, popD, pushD, slot_pop_pop, slot_four_push, slot_pop_push, dataWord, registersAfter,
    dataPicture, returnPicture, pointerAfter_two_three, pointerAfter_balanced, pcAfter]

/-- What an instruction that does not fault answers, in any memory and in a canonical one. -/
theorem exec_of_not_dividesByZero {i : Instr} {s : State} (h : ¬ DividesByZero i s) :
    ∃ m, exec i s = .next (registersAfter i s m) ∧ (s.mem.wf = true → m = writeCells (netWrites i s) s.mem) := by
  by_cases hdup : i = .dup
  · subst hdup
    refine ⟨_, exec_dup_eq_registersAfter s, fun hs => ?_⟩
    rw [dataWord, writeWord_readWord hs]
    rfl
  by_cases hover : i = .overWord
  · subst hover
    refine ⟨_, exec_overWord_eq_registersAfter s, fun hs => ?_⟩
    rw [dataWord, dataWord, writeWord_readWord hs, writeWord_readWord hs]
    rfl
  exact ⟨_, exec_eq_netWrites_of_not_copy h hdup hover, fun _ => rfl⟩

/-- All an instruction can answer as a next state. -/
theorem exec_next_cases {i : Instr} {s t : State} (h : exec i s = .next t) :
    ¬ DividesByZero i s ∧ ∃ m, t = registersAfter i s m ∧ (s.mem.wf = true → m = writeCells (netWrites i s) s.mem) := by
  have hzero : ¬ DividesByZero i s := fun hz => by cases (exec_of_dividesByZero hz).symm.trans h
  obtain ⟨m, hm, hmem⟩ := exec_of_not_dividesByZero hzero
  cases hm.symm.trans h
  exact ⟨hzero, m, rfl, hmem⟩

/-- The memory an instruction leaves, from a canonical one. -/
theorem exec_next_mem {i : Instr} {s t : State} (hs : s.mem.wf = true) (h : exec i s = .next t) :
    t.mem = writeCells (netWrites i s) s.mem := by
  obtain ⟨_, _, rfl, hmem⟩ := exec_next_cases h
  exact hmem hs

theorem exec_next_wf {i : Instr} {s t : State} (hs : s.mem.wf = true) (h : exec i s = .next t) : t.mem.wf = true := by
  rw [exec_next_mem hs h]
  exact writeCells_wf hs _

/-- Settles O38: the registers of `registersAfter`. -/
theorem registerFrameOfEveryInstruction : Obligations.RegisterFrameOfEveryInstruction := by
  intro i s t h
  obtain ⟨_, m, rfl, _⟩ := exec_next_cases h
  exact ⟨rfl, rfl, rfl, rfl, rfl, rfl⟩

/-- Settles O39: a cell that is not in the list of writes keeps its contents. -/
theorem memoryFrameOfEveryInstruction : Obligations.MemoryFrameOfEveryInstruction := by
  intro i s t a hs h ha
  rw [exec_next_mem hs h]
  exact readByte_writeCells_of_not_mem hs (mt (mem_netWrites_iff i s a).mp ha)

/-- Settles O40: the fault on a zero divisor, and the next state in every other case. -/
theorem onlyDivisionByZeroFaults : Obligations.OnlyDivisionByZeroFaults := by
  refine fun i s => ⟨fun hzero => ⟨exec_of_dividesByZero hzero, rfl⟩, fun hzero => ?_⟩
  obtain ⟨m, hm, _⟩ := exec_of_not_dividesByZero hzero
  exact ⟨_, hm⟩

/-- Settles O41: `store-word` moves `sp` only, and the write-back stores the live registers. -/
theorem storeToSaveAreaDoesNotReachRegisters : Obligations.StoreToSaveAreaDoesNotReachRegisters := by
  intro s t hs _ h
  obtain ⟨hpc, hsp, hrp, _⟩ := writeBack_reads (exec_next_wf hs h)
  cases (exec_storeWord s).symm.trans h
  exact ⟨rfl, rfl, rfl, hpc, hsp, hrp⟩

end Sys2Proof.Machine
end

section
/-! SUPPORT. What an instruction reads is among the cells it touches: its writes, its `pc` and its fault are the same on two
memories that agree on those cells, and so is the fetch before it. With it the obligation that a step depends on, and changes,
only the cells it touches. -/

namespace Sys2Proof.Machine

/-! ### The execute phase -/

/-- Memories that agree on the two cells of a word agree on the word. -/
theorem readWord_congr {m n : Memory} {a : Word} (h : ∀ c ∈ wordCells a, readByte m c = readByte n c) :
    readWord m a = readWord n a := by
  rw [readWord, readWord, h a (by simp [wordCells]), h (a + 1) (by simp [wordCells])]

/-- An instruction touches every cell it stores to. -/
theorem storedCells_subset_touchedCells (i : Instr) (s : State) : storedCells i s ⊆ touchedCells i s := by
  intro a ha
  cases i with
  | nop | drop | jump | jumpIfZero | jumpIfNonzero | ret => cases ha
  | pushLiteral | swap | rot | not | call => exact ha
  | dup | overWord | toReturn | fromReturn | storeByte | storeWord | callIndirect => exact List.mem_append_right _ ha
  | loadByte | loadWord => exact List.mem_append_left _ ha
  | add | sub | mul | div | mod | and | or | xor | shl | shr | eq | lt | le => exact List.mem_append_right _ ha

/-- An instruction touches the words it pops, by the stack pictures of R85. -/
theorem poppedWords_subset_touchedCells (i : Instr) (s : State) :
    (1 ≤ (dataPicture i).1 → wordCells (s.sp + 2) ⊆ touchedCells i s) ∧
    (2 ≤ (dataPicture i).1 → wordCells (s.sp + 4) ⊆ touchedCells i s) ∧
    (3 ≤ (dataPicture i).1 → wordCells (s.sp + 6) ⊆ touchedCells i s) ∧
    (1 ≤ (returnPicture i).1 → wordCells (s.rp + 2) ⊆ touchedCells i s) := by
  cases i <;> simp [dataPicture, returnPicture, touchedCells]

section
variable {i : Instr} {s : State} {m : Memory} (hagree : ∀ a ∈ touchedCells i s, readByte m a = readByte s.mem a)

include hagree

/-- Agreement on the touched cells is agreement on the words among them. -/
theorem readWord_of_agree_touchedCells {a : Word} (ha : wordCells a ⊆ touchedCells i s) : readWord m a = readWord s.mem a :=
  readWord_congr fun c hc => hagree c (ha hc)

theorem topWord_congr (hpops : 1 ≤ (dataPicture i).1) : dataWord { s with mem := m } 2 = dataWord s 2 := by
  obtain ⟨htop, _⟩ := poppedWords_subset_touchedCells i s
  exact readWord_of_agree_touchedCells hagree (htop hpops)

theorem secondWord_congr (hpops : 2 ≤ (dataPicture i).1) : dataWord { s with mem := m } 4 = dataWord s 4 := by
  obtain ⟨_, hsecond, _⟩ := poppedWords_subset_touchedCells i s
  exact readWord_of_agree_touchedCells hagree (hsecond hpops)

theorem thirdWord_congr (hpops : 3 ≤ (dataPicture i).1) : dataWord { s with mem := m } 6 = dataWord s 6 := by
  obtain ⟨_, _, hthird, _⟩ := poppedWords_subset_touchedCells i s
  exact readWord_of_agree_touchedCells hagree (hthird hpops)

theorem returnWord_congr (hpops : 1 ≤ (returnPicture i).1) : readWord m (s.rp + 2) = readWord s.mem (s.rp + 2) := by
  obtain ⟨_, _, _, hreturn⟩ := poppedWords_subset_touchedCells i s
  exact readWord_of_agree_touchedCells hagree (hreturn hpops)

/-- The fault is decided by a popped word. -/
theorem dividesByZero_congr : DividesByZero i { s with mem := m } ↔ DividesByZero i s := by
  refine and_congr_right fun hdivide => ?_
  have hpops : 1 ≤ (dataPicture i).1 := by rcases hdivide with rfl | rfl <;> decide
  rw [topWord_congr hagree hpops]

/-- The writes are made of popped words and of the word or byte at a popped address. -/
theorem netWrites_congr : netWrites i { s with mem := m } = netWrites i s := by
  cases i with
  | nop | drop | jump | jumpIfZero | jumpIfNonzero | ret | pushLiteral | callIndirect | call => rfl
  | dup | toReturn | not => simp only [netWrites, topWord_congr hagree (by decide)]
  | fromReturn => simp only [netWrites, returnWord_congr hagree (by decide)]
  | loadByte =>
    have hbyte := hagree (dataWord s 2) (by simp [touchedCells])
    simp only [netWrites, topWord_congr hagree (by decide), hbyte]
  | loadWord =>
    have hword := readWord_of_agree_touchedCells hagree (a := dataWord s 2) (List.subset_append_right _ _)
    simp only [netWrites, topWord_congr hagree (by decide), hword]
  | rot =>
    simp only [netWrites, topWord_congr hagree (by decide), secondWord_congr hagree (by decide),
      thirdWord_congr hagree (by decide)]
  | overWord => simp only [netWrites, secondWord_congr hagree (by decide)]
  | swap | storeByte | storeWord | add | sub | mul | div | mod | and | or | xor | shl | shr | eq | lt | le =>
    simp only [netWrites]
    rw [topWord_congr hagree (by decide), secondWord_congr hagree (by decide)]

/-- A transfer's target and condition are popped words; that of `call-indirect` is popped after a push. -/
theorem pcAfter_congr (hs : s.mem.wf = true) (hm : m.wf = true) : pcAfter i { s with mem := m } = pcAfter i s := by
  cases i with
  | jump => simp only [pcAfter, topWord_congr hagree (by decide)]
  | jumpIfZero | jumpIfNonzero =>
    simp only [pcAfter]
    rw [topWord_congr hagree (by decide), secondWord_congr hagree (by decide)]
  | callIndirect =>
    obtain ⟨htop, _⟩ := poppedWords_subset_touchedCells .callIndirect s
    exact readWord_congr fun c hc =>
      readByte_writeCells_congr hm hs (wordWrites s.rp s.pc) (hagree c (htop (by decide) hc))
  | ret => simp only [pcAfter, returnWord_congr hagree (by decide)]
  | _ => rfl

/-- The execute phase on two memories that agree on the cells it touches. -/
theorem exec_congr (hs : s.mem.wf = true) (hm : m.wf = true) :
    (∃ t t', exec i s = .next t ∧ exec i { s with mem := m } = .next t' ∧ t' = { t with mem := t'.mem } ∧
      t.mem = writeCells (netWrites i s) s.mem ∧ t'.mem = writeCells (netWrites i s) m) ∨
    (exec i s = .fault .divideByZero ∧ exec i { s with mem := m } = .fault .divideByZero) := by
  by_cases hzero : DividesByZero i s
  · exact .inr ⟨exec_of_dividesByZero hzero, exec_of_dividesByZero ((dividesByZero_congr hagree).mpr hzero)⟩
  · obtain ⟨n, ht, hn⟩ := exec_of_not_dividesByZero hzero
    obtain ⟨n', ht', hn'⟩ := exec_of_not_dividesByZero (mt (dividesByZero_congr hagree).mp hzero)
    refine .inl ⟨_, _, ht, ht', ?_, hn hs, ?_⟩
    · rw [registersAfter, pcAfter_congr hagree hs hm]
      rfl
    · rw [← netWrites_congr hagree]
      exact hn' hm

end

/-! ### The whole step -/

/-- A step touches the first word it fetches, the literal if one follows, and the cells its instruction touches. -/
theorem stepCells_spec (s : State) :
    wordCells s.pc ⊆ stepCells s ∧
    (decodeFirst (readWord s.mem s.pc) = .literalFollows → wordCells (s.pc + 2) ⊆ stepCells s) ∧
    touchedCells (fetchInstr s).1 (fetchInstr s).2 ⊆ stepCells s := by
  unfold stepCells
  cases decodeFirst (readWord s.mem s.pc) with
  | whole i =>
    refine ⟨List.subset_append_left _ _, ?_, List.subset_append_right _ _⟩
    rintro ⟨⟩
  | literalFollows =>
    refine ⟨fun c hc => ?_, fun _ c hc => ?_, List.subset_append_right _ _⟩
    · exact List.mem_append_left _ (List.mem_append_left _ hc)
    · exact List.mem_append_left _ (List.mem_append_right _ hc)

/-- The fetch on a memory that agrees on the cells of the step. -/
theorem fetchInstr_congr {s : State} {m : Memory} (hagree : ∀ a ∈ stepCells s, readByte m a = readByte s.mem a) :
    fetchInstr { s with mem := m } = ((fetchInstr s).1, { (fetchInstr s).2 with mem := m }) := by
  obtain ⟨hpc, hliteral, _⟩ := stepCells_spec s
  have hfirst : readWord m s.pc = readWord s.mem s.pc := readWord_congr fun c hc => hagree c (hpc hc)
  cases hw : decodeFirst (readWord s.mem s.pc) with
  | whole i =>
    have hw' : decodeFirst (readWord m s.pc) = .whole i := (congrArg decodeFirst hfirst).trans hw
    rw [fetchInstr_whole (s := { s with mem := m }) hw', fetchInstr_whole hw]
  | literalFollows =>
    have hw' : decodeFirst (readWord m s.pc) = .literalFollows := (congrArg decodeFirst hfirst).trans hw
    have hsecond : readWord m (s.pc + 2) = readWord s.mem (s.pc + 2) := readWord_congr fun c hc => hagree c (hliteral hw hc)
    rw [fetchInstr_literal (s := { s with mem := m }) hw', fetchInstr_literal hw, hsecond]

theorem fetchInstr_mem (s : State) : (fetchInstr s).2.mem = s.mem := by
  rw [fetchInstr_state]

/-- Settles O42: the same fetch and the same writes on both memories, so that agreement is kept and all else left alone. -/
theorem stepDependsOnlyOnCellsItTouches : Obligations.StepDependsOnlyOnCellsItTouches := by
  intro s m hs hm hagree
  obtain ⟨_, _, htouched⟩ := stepCells_spec s
  have hmem := fetchInstr_mem s
  have hfetched : ∀ a ∈ touchedCells (fetchInstr s).1 (fetchInstr s).2, readByte m a = readByte (fetchInstr s).2.mem a :=
    fun a ha => hmem ▸ hagree a (htouched ha)
  have houtside : ∀ a, a ∉ stepCells s → a ∉ (netWrites (fetchInstr s).1 (fetchInstr s).2).map Prod.fst := fun a ha hw =>
    ha (htouched (storedCells_subset_touchedCells _ _ ((mem_netWrites_iff _ _ a).mp hw)))
  rw [instrStep, instrStep, fetchInstr_congr hagree]
  rcases exec_congr hfetched (hmem.symm ▸ hs) hm with ⟨t, t', ht, ht', hregs, hn, hn'⟩ | ⟨hf, hf'⟩
  · rw [hmem] at hn
    refine .inl ⟨t, t', ht, ht', hregs, fun a ha => ?_, fun a ha => ⟨?_, ?_⟩⟩
    · rw [hn, hn']
      exact readByte_writeCells_congr hm hs _ (hagree a ha)
    · rw [hn]
      exact readByte_writeCells_of_not_mem hs (houtside a ha)
    · rw [hn']
      exact readByte_writeCells_of_not_mem hm (houtside a ha)
  · exact .inr ⟨_, hf, hf'⟩

end Sys2Proof.Machine
end

section
/-! SUPPORT. The fetch of an instruction and the decoding of the bytes at `pc` as one thing, the step of a batch as the execute
phase of what they give (spec 40_run_and_step.md R103 to R105), and with them the obligations on one step. -/

namespace Sys2Proof.Machine

/-! ### The fetch -/

/-- The fetch with the literal, as two fetches (R104). -/
theorem fetchInstr_eq_two_fetches {s : State} (h : readWord s.mem s.pc = 0x0001) :
    fetchInstr s = (.pushLiteral (fetch (fetch s).2).1, (fetch (fetch s).2).2) := by
  rw [fetchInstr_literal (decodeFirst_eq_literalFollows_iff.mpr h), fetch, fetch, slot_pop_pop]

theorem fetchInstr_state_eq_one_fetch {s : State} (h : readWord s.mem s.pc ≠ 0x0001) : (fetchInstr s).2 = (fetch s).2 := by
  cases hw : decodeFirst (readWord s.mem s.pc) with
  | whole i => rw [fetchInstr_whole hw, fetch]
  | literalFollows => exact absurd (decodeFirst_eq_literalFollows_iff.mp hw) h

/-- Settles O16: the word at `pc` with the next address modulo 65536, and one or two fetches by the first word. -/
theorem fetchReadsWordAndAdvancesPc : Obligations.FetchReadsWordAndAdvancesPc := by
  intro s
  refine ⟨?_, fun hpc => ?_, fun hpc => ?_, fetchInstr_eq_two_fetches, fetchInstr_state_eq_one_fetch⟩
  · rw [fetch, pointer_add_two]
  · rw [fetch, hpc]
    rfl
  · rw [fetch, hpc]
    rfl

/-- The bytes at `pc` decode to the instruction that is fetched, and the fetch leaves `pc` past its words (R80, R103). -/
theorem decode_fetchedBytes (s : State) :
    ∃ rest, decode (fetchedBytes s) = .ok ((fetchInstr s).1, rest) ∧ (fetchInstr s).1.wellFormed = true ∧
      (fetchInstr s).2 = { s with pc := s.pc + u16 (instrLength (fetchInstr s).1) } := by
  cases hw : decodeFirst (readWord s.mem s.pc) with
  | whole i =>
    obtain ⟨hwf, henc⟩ := wellFormed_and_encodeWords_of_decodeFirst_whole hw
    rw [fetchInstr_whole hw, instrLength_of_encodeWords_singleton henc]
    exact ⟨_, decode_of_whole hw _, hwf, rfl⟩
  | literalFollows =>
    have hliteral : wordOfBytes (readByte s.mem (s.pc + 2)) (readByte s.mem (s.pc + 3)) = readWord s.mem (s.pc + 2) := by
      rw [readWord, show s.pc + 2 + 1 = s.pc + 3 by bv_omega]
    rw [fetchInstr_literal hw, ← hliteral]
    exact ⟨_, decode_of_literal hw _ _ _, rfl, rfl⟩

/-! ### The step of a batch -/

/-- Settles O17: the fetch in the state with one unit of the budget used, read as decoding. -/
theorem stepRunsTheDecodedInstruction : Obligations.StepRunsTheDecodedInstruction := by
  intro s hready
  obtain ⟨rest, hdecode, hwf, hfetched⟩ := decode_fetchedBytes { s with budget := s.budget - 1 }
  refine ⟨_, rest, hdecode, hwf, ?_⟩
  rw [step_of_ready hready, instrStep, hfetched]
  rfl

/-- A step on a first word that is a whole instruction (R81). -/
theorem step_of_whole {s : State} {i : Instr} (hready : Ready s) (hw : decodeFirst (readWord s.mem s.pc) = .whole i) :
    step s = exec i (afterFetch s 2) := by
  rw [step_of_ready hready, instrStep, fetchInstr_whole (s := { s with budget := s.budget - 1 }) hw]
  rfl

/-- Settles O18: the fetch takes the unit, and the execute phase leaves budget and status alone. -/
theorem everyInstructionUsesOneUnitOfBudget : Obligations.EveryInstructionUsesOneUnitOfBudget := by
  intro s t hready hstep
  obtain ⟨i, _, _, _, hexec⟩ := stepRunsTheDecodedInstruction s hready
  obtain ⟨_, m, rfl, _⟩ := exec_next_cases (hexec.symm.trans hstep)
  obtain ⟨hrunning, hbudget, _⟩ := hready
  exact ⟨Nat.sub_add_cancel hbudget, hrunning⟩

/-- `pc` stays in the execute phase of what is no control transfer (R22). -/
theorem pcAfter_of_not_transfer {i : Instr} {s : State}
    (hjump : i ∉ [.jump, .jumpIfZero, .jumpIfNonzero, .callIndirect, .ret]) (hcall : ∀ target, i ≠ .call target) :
    pcAfter i s = s.pc := by
  cases i with
  | call target => exact absurd rfl (hcall target)
  | jump | jumpIfZero | jumpIfNonzero | callIndirect | ret => simp at hjump
  | _ => rfl

/-- Settles O19: `pc` is past the instruction when it executes, and its execute phase follows the table of R22. -/
theorem programCounterAfterEachInstruction : Obligations.ProgramCounterAfterEachInstruction := by
  intro s t hready hstep
  obtain ⟨i, rest, hdecode, _, hexec⟩ := stepRunsTheDecodedInstruction s hready
  obtain ⟨_, m, rfl, _⟩ := exec_next_cases (hexec.symm.trans hstep)
  exact ⟨i, rest, hdecode, rfl, fun ⟨hjump, hcall⟩ => pcAfter_of_not_transfer hjump hcall⟩

/-- An instruction faults exactly on a zero divisor. -/
theorem exec_eq_fault_iff {i : Instr} {s : State} : exec i s = .fault .divideByZero ↔ DividesByZero i s := by
  refine ⟨fun hfault => ?_, exec_of_dividesByZero⟩
  by_contra hzero
  obtain ⟨m, hnext, _⟩ := exec_of_not_dividesByZero hzero
  cases hfault.symm.trans hnext

/-- An instruction answers the fault or a next state. -/
theorem exec_fault_or_next (i : Instr) (s : State) : exec i s = .fault .divideByZero ∨ ∃ t, exec i s = .next t := by
  by_cases hzero : DividesByZero i s
  · exact .inl (exec_of_dividesByZero hzero)
  · obtain ⟨m, hnext, _⟩ := exec_of_not_dividesByZero hzero
    exact .inr ⟨_, hnext⟩

/-- A whole first word is the one that its instruction is encoded as. -/
theorem eq_iff_of_decodeFirst_whole {w w' : Word} {i j : Instr} (hi : decodeFirst w = .whole i)
    (hj : decodeFirst w' = .whole j) : i = j ↔ w = w' := by
  constructor
  · rintro rfl
    have henc := (wellFormed_and_encodeWords_of_decodeFirst_whole hi).2
    exact List.singleton_inj.mp (henc.symm.trans (wellFormed_and_encodeWords_of_decodeFirst_whole hj).2)
  · rintro rfl
    cases hi.symm.trans hj
    rfl

/-- Settles O21: the fault of the decoded instruction, and that `div` and `mod` are the words 0x0013 and 0x0014. -/
theorem stepFaultsExactlyOnZeroDivisor : Obligations.StepFaultsExactlyOnZeroDivisor := by
  intro s hready
  cases hw : decodeFirst (readWord s.mem s.pc) with
  | whole i =>
    have hdiv : i = .div ↔ readWord s.mem s.pc = 0x0013 := eq_iff_of_decodeFirst_whole hw rfl
    have hmod : i = .mod ↔ readWord s.mem s.pc = 0x0014 := eq_iff_of_decodeFirst_whole hw rfl
    rw [step_of_whole hready hw]
    refine ⟨?_, exec_fault_or_next i _⟩
    rw [exec_eq_fault_iff, DividesByZero, hdiv, hmod]
    rfl
  | literalFollows =>
    have hword : readWord s.mem s.pc = 0x0001 := decodeFirst_eq_literalFollows_iff.mp hw
    rw [step_of_literalFollows hready hw, exec_pushLiteral, hword]
    exact ⟨⟨fun hfault => (by cases hfault), fun h => absurd h.1 (by decide)⟩, .inr ⟨_, rfl⟩⟩

/-- Settles O20: the word just written is at the new `pc`, and the batch is still ready. -/
theorem storedInstructionWordExecutesNext : Obligations.StoredInstructionWordExecutesNext := by
  intro s i hs hready hbudget hdue hw haddress hvalue
  have hstep := (step_of_whole hready hw).trans (exec_storeWord (afterFetch s 2))
  have hread : readWord (writeWord s.mem (dataWord s 2) (dataWord s 4)) (s.pc + 2) = dataWord s 4 := by
    rw [haddress, readWord_writeWord hs]
  obtain ⟨hrunning, _⟩ := hready
  refine ⟨_, hstep, hread, step_of_whole ⟨hrunning, Nat.sub_pos_of_lt hbudget, hdue⟩ ?_⟩
  exact (congrArg decodeFirst hread).trans hvalue

/-- Settles O32: the call pushes the address after its word, and the pop of the return stack undoes the push. -/
theorem returnResumesAfterTheCall : Obligations.ReturnResumesAfterTheCall := by
  intro s t hs hready hcall hstep
  rw [step_of_whole hready (decodeFirst_call hcall), exec_call] at hstep
  cases hstep
  refine ⟨rfl, readWord_writeWord hs s.rp (s.pc + 2), _, exec_ret _, ?_, slot_push_pop s.rp, rfl⟩
  rw [setPc_pc, popR_value, setPc_rp, pushR_rp, slot_push_pop]
  exact readWord_writeWord hs s.rp (s.pc + 2)

end Sys2Proof.Machine
end

section
/-! SUPPORT. An instruction heeds neither status, budget nor queue; the loop of a batch as a run of steps, its frame, and two
batches in a row (spec 40_run_and_step.md R101 to R108). With these the obligations on batches. -/

namespace Sys2Proof.Machine

/-! ### What an instruction does not see -/

/-- An outcome with its next state changed. -/
def mapNext (f : State → State) : Host.Outcome State Fault Refusal → Host.Outcome State Fault Refusal
  | .next t => .next (f t)
  | .fault c => .fault c
  | .refused r => .refused r

/-- A state with the bookkeeping of the run changed: status, budget and queue. -/
def withContext (status : Status) (budget : Nat) (pending : List HostAction) (s : State) : State :=
  { s with status := status, budget := budget, pending := pending }

/-- The execute phase neither reads nor changes status, budget and queue (R36, R37). -/
theorem exec_withContext (i : Instr) (status : Status) (budget : Nat) (pending : List HostAction) (s : State) :
    exec i (withContext status budget pending s) = mapNext (withContext status budget pending) (exec i s) := by
  cases i with
  | div | mod =>
    have htop : dataWord (withContext status budget pending s) 2 = dataWord s 2 := rfl
    simp only [exec_div, exec_mod, htop]
    split <;> rfl
  | jumpIfZero | jumpIfNonzero =>
    simp only [exec_jumpIfZero, exec_jumpIfNonzero]
    rfl
  | swap | overWord | rot =>
    simp only [exec_swap, exec_overWord_eq_registersAfter, exec_rot]
    rfl
  | _ => rfl

theorem fetchInstr_withContext (status : Status) (budget : Nat) (pending : List HostAction) (s : State) :
    fetchInstr (withContext status budget pending s) =
      ((fetchInstr s).1, withContext status budget pending (fetchInstr s).2) := by
  cases hw : decodeFirst (readWord s.mem s.pc) with
  | whole i => rw [fetchInstr_whole hw, fetchInstr_whole (s := withContext status budget pending s) hw]; rfl
  | literalFollows => rw [fetchInstr_literal hw, fetchInstr_literal (s := withContext status budget pending s) hw]; rfl

theorem instrStep_withContext (status : Status) (budget : Nat) (pending : List HostAction) (s : State) :
    instrStep (withContext status budget pending s) = mapNext (withContext status budget pending) (instrStep s) := by
  rw [instrStep, fetchInstr_withContext, exec_withContext, instrStep]

/-- The frame of one instruction's step. -/
theorem instrStep_next {s t : State} (h : instrStep s = .next t) :
    t.status = s.status ∧ t.budget = s.budget ∧ t.pending = s.pending ∧ (s.mem.wf = true → t.mem.wf = true) ∧
    (s.mem.wf = true → ∀ a, a ∉ storedCells (fetchInstr s).1 (fetchInstr s).2 → readByte t.mem a = readByte s.mem a) := by
  have hmem := fetchInstr_mem s
  obtain ⟨hstatus, hbudget, hpending, _⟩ := registerFrameOfEveryInstruction _ _ _ h
  rw [fetchInstr_state s] at hstatus hbudget hpending
  refine ⟨hstatus, hbudget, hpending, fun hs => ?_, fun hs a ha => ?_⟩
  · exact exec_next_wf (hmem.symm ▸ hs) h
  · rw [memoryFrameOfEveryInstruction _ _ _ a (hmem.symm ▸ hs) h ha, hmem]

/-! ### The loop of a batch -/

theorem repeatStep_succ_of_next {n : Nat} {s t : State} (h : instrStep s = .next t) : repeatStep (n + 1) s = repeatStep n t := by
  rw [repeatStep, h]

/-- A loop that completes completes its first step. -/
theorem repeatStep_succ_next {n : Nat} {s t : State} (h : repeatStep (n + 1) s = .next t) :
    ∃ u, instrStep s = .next u ∧ repeatStep n u = .next t := by
  rw [repeatStep] at h
  split at h
  · exact ⟨_, by assumption, h⟩
  · cases h
  · cases h

/-- A loop goes on from where a shorter one ends. -/
theorem repeatStep_add {n k : Nat} {s u : State} (h : repeatStep n s = .next u) : repeatStep (n + k) s = repeatStep k u := by
  induction n generalizing s with
  | zero =>
    cases h
    rw [Nat.zero_add]
  | succ n ih =>
    obtain ⟨v, hv, hu⟩ := repeatStep_succ_next h
    rw [Nat.succ_add, repeatStep_succ_of_next hv, ih hu]

/-- A loop that completes can be cut anywhere. -/
theorem repeatStep_add_next {n k : Nat} {s t : State} (h : repeatStep (n + k) s = .next t) :
    ∃ u, repeatStep n s = .next u ∧ repeatStep k u = .next t := by
  induction n generalizing s with
  | zero => exact ⟨s, rfl, by rwa [Nat.zero_add] at h⟩
  | succ n ih =>
    rw [Nat.succ_add] at h
    obtain ⟨v, hv, ht⟩ := repeatStep_succ_next h
    obtain ⟨u, hu, ht⟩ := ih ht
    exact ⟨u, (repeatStep_succ_of_next hv).trans hu, ht⟩

/-- The frame of a loop: status and canonical form. -/
theorem repeatStep_next {n : Nat} {s t : State} (h : repeatStep n s = .next t) :
    t.status = s.status ∧ (s.mem.wf = true → t.mem.wf = true) := by
  induction n generalizing s with
  | zero =>
    cases h
    exact ⟨rfl, id⟩
  | succ n ih =>
    obtain ⟨u, hu, ht⟩ := repeatStep_succ_next h
    obtain ⟨hstatus, _, _, hwf, _⟩ := instrStep_next hu
    obtain ⟨hstatus', hwf'⟩ := ih ht
    exact ⟨hstatus'.trans hstatus, hwf' ∘ hwf⟩

/-- A cell that no step of a loop stores to keeps its contents. -/
theorem readByte_repeatStep {n : Nat} {s t : State} {a : Word} (hs : s.mem.wf = true) (h : repeatStep n s = .next t)
    (ha : ∀ k u, k < n → repeatStep k s = .next u → a ∉ storedCells (fetchInstr u).1 (fetchInstr u).2) :
    readByte t.mem a = readByte s.mem a := by
  induction n generalizing s with
  | zero => cases h; rfl
  | succ n ih =>
    obtain ⟨u, hu, ht⟩ := repeatStep_succ_next h
    obtain ⟨_, _, _, hwf, hframe⟩ := instrStep_next hu
    have hrest := ih (hwf hs) ht fun k v hk hv => ha (k + 1) v (by omega) ((repeatStep_succ_of_next hu).trans hv)
    rw [hrest, hframe hs a (ha 0 s (by omega) rfl)]

/-- Settles O48: neither of the counter's cells is stored to. -/
theorem frameCounterConstantWithinABatch : Obligations.FrameCounterConstantWithinABatch := by
  intro n s t hs h hstored
  have hcell : ∀ a, a = 0x0006 ∨ a = 0x0007 → readByte t.mem a = readByte s.mem a := fun a ha =>
    readByte_repeatStep hs h fun k u hk hu hmem => by
      obtain ⟨h6, h7⟩ := hstored k u hk hu a hmem
      exact ha.elim h6 h7
  rw [readWord, readWord, hcell 0x0006 (.inl rfl), hcell (0x0006 + 1) (.inr rfl)]

/-! ### `Run` -/

/-- The operation `Run(n)` on an Idle core (R101). -/
theorem runBatch_of_idle {s : State} (hs : s.status = .idle) (n : Nat) :
    runBatch n s = mapNext writeBack (repeatStep n { loadRegisters s with status := .running }) := by
  rw [runBatch, hs]
  simp only
  cases repeatStep n { loadRegisters s with status := .running } <;> rfl

/-- `Run(n)` that completes is a loop that completes and the write-back. -/
theorem runBatch_next {n : Nat} {s t : State} (hs : s.status = .idle) (h : runBatch n s = .next t) :
    ∃ u, repeatStep n { loadRegisters s with status := .running } = .next u ∧ t = writeBack u := by
  rw [runBatch_of_idle hs] at h
  cases hr : repeatStep n { loadRegisters s with status := .running } with
  | next u => rw [hr] at h; cases h; exact ⟨u, rfl, rfl⟩
  | fault f => rw [hr] at h; cases h
  | refused r => rw [hr] at h; cases h

/-- The start of a batch as a step of the machine (R101, R102). -/
theorem step_of_run {s : State} {n : Nat} {rest : List HostAction} (hs : s.status = .idle) (hp : s.pending = .run n :: rest) :
    step s = .next (startBatch n { s with pending := rest }) := by
  rw [step_of_idle hs, hostStep, hp]
  rfl

/-- Settles O43: the start of a batch, its three words by their bytes. -/
theorem batchStartLoadsRegistersFromSaveArea : Obligations.BatchStartLoadsRegistersFromSaveArea :=
  fun _ _ _ hs hp => step_of_run hs hp

/-- Settles O44: the write-back as a step, and what it leaves in memory. -/
theorem writeBackStoresRegistersInSaveArea : Obligations.WriteBackStoresRegistersInSaveArea := by
  intro s hs hstatus hbudget hdue
  exact ⟨_, step_of_batchDone hstatus hbudget hdue, rfl, writeBack_reads hs⟩

/-- Settles O45: the three words are written back where they were read. -/
theorem runOfZeroStepsChangesNoMemory : Obligations.RunOfZeroStepsChangesNoMemory := by
  intro s hs hidle
  rw [runBatch_of_idle hidle, repeatStep, mapNext, writeBack, loadRegisters, writeWord_readWord hs, writeWord_readWord hs,
    writeWord_readWord hs, ← hidle]
  rfl

/-- The steps of a batch and its write-back, as steps of the machine, are the loop and the write-back. -/
theorem run_batch_eq_repeatStep {n : Nat} {s : State} (hs : s.status = .running) (hbudget : s.budget = 0)
    (hdue : ∀ k, k ≤ n → dueLoad { s with budget := k } = none) :
    Host.Core.run Sys2Proof.core (n + 1) { s with budget := n } = mapNext writeBack (repeatStep n s) := by
  induction n generalizing s with
  | zero =>
    have hstep := step_of_batchDone (s := { s with budget := 0 }) hs rfl (hdue 0 (le_refl 0))
    have hsame : { s with budget := 0 } = s := by rw [← hbudget]
    rw [core_run_next 0 hstep, core_run_zero, hsame, repeatStep]
    rfl
  | succ n ih =>
    have hready : Ready { s with budget := n + 1 } := ⟨hs, Nat.succ_pos n, hdue (n + 1) (le_refl _)⟩
    have hstep : step { s with budget := n + 1 } = mapNext (withContext s.status n s.pending) (instrStep s) :=
      (step_of_ready hready).trans (instrStep_withContext s.status n s.pending s)
    cases hi : instrStep s with
    | next t =>
      obtain ⟨hstatus, hbudget', hpending, _⟩ := instrStep_next hi
      have hnext : step { s with budget := n + 1 } = .next { t with budget := n } := by
        rw [hstep, hi, mapNext, withContext, ← hstatus, ← hpending]
      rw [core_run_next _ hnext, repeatStep_succ_of_next hi]
      refine ih (hstatus.trans hs) (hbudget'.trans hbudget) fun k hk => ?_
      rw [← hdue k (by omega), dueLoad, dueLoad, hpending]
    | fault f => rw [core_run_fault _ (hstep.trans (congrArg _ hi)), repeatStep, hi]; rfl
    | refused r => rw [core_run_refused _ (hstep.trans (congrArg _ hi)), repeatStep, hi]; rfl

/-- Settles O46: the first step is the load, and the others are the loop and the write-back. -/
theorem runIsLoadThenStepsThenWriteBack : Obligations.RunIsLoadThenStepsThenWriteBack := by
  intro s n rest hidle hbudget hp hdue
  rw [core_run_next _ (step_of_run hidle hp), runBatch_of_idle (s := { s with pending := rest }) hidle]
  exact run_batch_eq_repeatStep (s := { loadRegisters { s with pending := rest } with status := .running }) rfl hbudget hdue

/-! ### Two batches in a row -/

/-- Memories that agree outside the save area. -/
def AgreeOutsideSaveArea (m n : Memory) : Prop := ∀ a : Word, 6 ≤ a.toNat → readByte m a = readByte n a

/-- The write-back overwrites the whole save area. -/
theorem writeBack_congr {s : State} {m : Memory} (hs : s.mem.wf = true) (hm : m.wf = true)
    (hagree : AgreeOutsideSaveArea m s.mem) : writeBack { s with mem := m } = writeBack s := by
  have hmem : (writeBack { s with mem := m }).mem = (writeBack s).mem :=
    memory_ext (writeBack_wf (s := { s with mem := m }) hm) (writeBack_wf hs) fun a => by
      simp only [writeBack_mem, readByte_writeWord hm, readByte_writeWord hs, readByte_writeWord (writeWord_wf hm _ _),
        readByte_writeWord (writeWord_wf hs _ _), readByte_writeWord (writeWord_wf (writeWord_wf hm _ _) _ _),
        readByte_writeWord (writeWord_wf (writeWord_wf hs _ _) _ _)]
      split_ifs with h4 h5 h2 h3 h0 h1
      any_goals rfl
      simp only [Config.savedPc, Config.savedSp, Config.savedRp] at h4 h5 h2 h3 h0 h1
      exact hagree a (by bv_omega)
  calc writeBack { s with mem := m }
    _ = { writeBack s with mem := (writeBack { s with mem := m }).mem } := rfl
    _ = writeBack s := by rw [hmem]

/-- A loop that does not touch the save area does the same on memories that agree outside it. -/
theorem repeatStep_congr {n : Nat} {s t : State} {m : Memory} (hs : s.mem.wf = true) (hm : m.wf = true)
    (hagree : AgreeOutsideSaveArea m s.mem) (h : repeatStep n s = .next t)
    (htouch : ∀ k u, k < n → repeatStep k s = .next u → ∀ a ∈ stepCells u, 6 ≤ a.toNat) :
    ∃ m', repeatStep n { s with mem := m } = .next { t with mem := m' } ∧ m'.wf = true ∧ AgreeOutsideSaveArea m' t.mem := by
  induction n generalizing s m with
  | zero => cases h; exact ⟨m, rfl, hm, hagree⟩
  | succ n ih =>
    obtain ⟨u, hu, ht⟩ := repeatStep_succ_next h
    have hcells := htouch 0 s (by omega) rfl
    rcases stepDependsOnlyOnCellsItTouches s m hs hm fun a ha => hagree a (hcells a ha) with
      ⟨v, v', hv, hv', hregs, hsame, hother⟩ | ⟨f, hf, _⟩
    · cases hu.symm.trans hv
      obtain ⟨_, _, _, hwf, _⟩ := instrStep_next hu
      obtain ⟨_, _, _, hwf', _⟩ := instrStep_next hv'
      have hagree' : AgreeOutsideSaveArea v'.mem u.mem := fun a ha => by
        by_cases hmem : a ∈ stepCells s
        · exact hsame a hmem
        · obtain ⟨hleft, hright⟩ := hother a hmem
          rw [hleft, hright, hagree a ha]
      obtain ⟨m', hm', hrest⟩ := ih (hwf hs) (hwf' hm) hagree' ht fun k w hk hw =>
        htouch (k + 1) w (by omega) ((repeatStep_succ_of_next hu).trans hw)
      rw [← hregs] at hm'
      exact ⟨m', (repeatStep_succ_of_next hv').trans hm', hrest⟩
    · cases hu.symm.trans hf

/-- The registers that a batch stores are those that the next one loads (R102, R106). -/
theorem loadRegisters_writeBack {s : State} (hs : s.mem.wf = true) (hstatus : s.status = .running) :
    { loadRegisters (writeBack s) with status := .running } = { s with mem := (writeBack s).mem } := by
  obtain ⟨hpc, hsp, hrp, _⟩ := writeBack_reads hs
  rw [loadRegisters, hpc, hsp, hrp, ← hstatus]
  rfl

/-- Settles O47: the second batch starts where the first one stopped, but for a save area that it does not touch. -/
theorem batchesComposeOutsideTheSaveArea : Obligations.BatchesComposeOutsideTheSaveArea := by
  intro s t n1 n2 hs hidle hrun htouch
  obtain ⟨u, hu, rfl⟩ := runBatch_next hidle hrun
  obtain ⟨v, hv, hvu⟩ := repeatStep_add_next hu
  obtain ⟨hstatus, hwf⟩ := repeatStep_next hv
  obtain ⟨_, hwf'⟩ := repeatStep_next hvu
  have hvwf := hwf hs
  obtain ⟨_, _, _, hagree⟩ := writeBack_reads hvwf
  obtain ⟨m, hm, hmwf, hmagree⟩ := repeatStep_congr hvwf (writeBack_wf hvwf) hagree hvu fun k w hk hw =>
    htouch k w hk ((repeatStep_add hv).trans hw)
  refine ⟨writeBack v, ?_, ?_⟩
  · rw [runBatch_of_idle hidle, hv, mapNext]
  · rw [runBatch_of_idle (writeBack_status v), loadRegisters_writeBack hvwf hstatus, hm, mapNext,
      writeBack_congr (hwf' hvwf) hmwf hmagree]

end Sys2Proof.Machine
end

section
/-! SUPPORT. The host's load and the step after it, and a core that no batch can start on, since it is Faulted or has no image
yet: it stays as it is until an image is loaded (spec 60_exceptions.md R204, 70_reset_and_hazards.md R230, R214). With these the
obligations on such a core. -/

namespace Sys2Proof.Machine

/-! ### The host's load -/

theorem hostLoad_of_length {image : List Byte} (h : image.length = 65536) (s : State) :
    hostLoad image s = .next (loadImage image s) := if_pos h

theorem hostLoad_of_wrong_length {image : List Byte} (h : image.length ≠ 65536) (s : State) :
    hostLoad image s = .refused .imageLength := if_neg h

/-- The host's load answers no fault. -/
theorem hostLoad_ne_fault (image : List Byte) (s : State) (f : Fault) : hostLoad image s ≠ .fault f := by
  rw [hostLoad]
  split <;> simp

/-! ### Where the machine stands after a step -/

theorem proceed_of_next {s t : State} (h : step s = .next t) : proceed s = t := by
  rw [proceed, h]

theorem proceed_of_fault {s : State} {f : Fault} (h : step s = .fault f) : proceed s = faultedState f s := by
  rw [proceed, h]

theorem proceed_of_refused {s : State} {r : Refusal} (h : step s = .refused r) :
    proceed s = { s with pending := s.pending.tail } := by
  rw [proceed, h]

/-! ### Idle, and a core that no batch can start on -/

/-- A step of an Idle core with an action waiting (R100). -/
theorem step_idle_cons {s : State} {act : HostAction} {rest : List HostAction} (hs : s.status = .idle)
    (hp : s.pending = act :: rest) : step s = hostActionIdle act { s with pending := rest } := by
  rw [step_of_idle hs, hostStep, hp]

/-- The statuses in which `Run` is refused outside a batch: no image yet, or a fault (R101, D11). -/
def NeedsImage (s : State) : Prop := s.status = .unloaded ∨ ∃ f, s.status = .faulted f

/-- Outside a batch a core is Idle or needs an image (R39). -/
theorem idle_or_needsImage {s : State} (h : s.status ≠ .running) : s.status = .idle ∨ NeedsImage s := by
  cases hs : s.status with
  | running => exact absurd hs h
  | idle => exact .inl rfl
  | unloaded => exact .inr (.inl hs)
  | faulted f => exact .inr (.inr ⟨f, hs⟩)

/-- A Faulted core answers the host as one without an image does (R204, R214). -/
theorem hostActionFaulted_eq : hostActionFaulted = hostActionUnloaded := rfl

theorem step_needsImage {s : State} (h : NeedsImage s) : step s = hostStep hostActionUnloaded s := by
  obtain hs | ⟨f, hs⟩ := h
  · exact step_of_unloaded hs
  · rw [step_of_faulted hs, hostActionFaulted_eq]

theorem step_needsImage_nil {s : State} (h : NeedsImage s) (hp : s.pending = []) : step s = .next s := by
  rw [step_needsImage h, hostStep, hp]

theorem step_needsImage_cons {s : State} {act : HostAction} {rest : List HostAction} (h : NeedsImage s)
    (hp : s.pending = act :: rest) : step s = hostActionUnloaded act { s with pending := rest } := by
  rw [step_needsImage h, hostStep, hp]

/-- A load action is the host's load (R230). -/
theorem hostActionUnloaded_load {act : HostAction} {image : List Byte} (h : loadedImage act = some image) (s : State) :
    hostActionUnloaded act s = hostLoad image s := by
  cases act with
  | loadImage im => cases h; rfl
  | loadImageDuring left im => cases h; rfl
  | run | frameTick | write => cases h

theorem hostActionIdle_load {act : HostAction} {image : List Byte} (h : loadedImage act = some image) (s : State) :
    hostActionIdle act s = hostLoad image s := by
  cases act with
  | loadImage im => cases h; rfl
  | loadImageDuring left im => cases h; rfl
  | run | frameTick | write => cases h

/-- An action that is not the load of an image of 65536 bytes. -/
abbrev LoadsNoImage (act : HostAction) : Prop := ∀ image, loadedImage act = some image → image.length ≠ 65536

/-- Without an image every action but its load is refused (R101, R100, R214). -/
theorem hostActionUnloaded_refused {act : HostAction} (h : LoadsNoImage act) (s : State) :
    ∃ r, hostActionUnloaded act s = .refused r := by
  cases act with
  | loadImage image => exact ⟨_, hostLoad_of_wrong_length (h image rfl) s⟩
  | loadImageDuring left image => exact ⟨_, hostLoad_of_wrong_length (h image rfl) s⟩
  | run n => exact ⟨_, rfl⟩
  | frameTick => exact ⟨_, rfl⟩
  | write address value => exact ⟨_, rfl⟩

/-- A step on a core that needs an image drops a request that brings none. -/
theorem proceed_needsImage {s : State} (h : NeedsImage s) (hp : ∀ act ∈ s.pending, LoadsNoImage act) :
    proceed s = { s with pending := s.pending.drop 1 } := by
  cases hq : s.pending with
  | nil =>
    rw [proceed_of_next (step_needsImage_nil h hq), List.drop_nil, ← hq]
  | cons act rest =>
    obtain ⟨r, hr⟩ := hostActionUnloaded_refused (hp act (hq ▸ List.mem_cons_self)) { s with pending := rest }
    rw [proceed_of_refused ((step_needsImage_cons h hq).trans hr), hq]
    rfl

/-- However long such a core is stepped, only its queue gets shorter. -/
theorem proceedN_needsImage (k : Nat) {s : State} (h : NeedsImage s) (hp : ∀ act ∈ s.pending, LoadsNoImage act) :
    proceedN k s = { s with pending := s.pending.drop k } := by
  induction k generalizing s with
  | zero => rfl
  | succ k ih =>
    have hrest : ∀ act ∈ s.pending.drop 1, LoadsNoImage act := fun act ha => hp act (List.mem_of_mem_drop ha)
    rw [proceedN, proceed_needsImage h hp, ih (s := { s with pending := s.pending.drop 1 }) h hrest, List.drop_drop,
      Nat.add_comm]

theorem loadsNoImage_of_loadedImage_none {act : HostAction} (h : loadedImage act = none) : LoadsNoImage act := by
  intro image himage
  cases h.symm.trans himage

/-- Settles O52: a Faulted core is one that needs an image. -/
theorem onlyAnImageLoadLeavesFaulted : Obligations.OnlyAnImageLoadLeavesFaulted := by
  intro s f hs
  have hneeds : NeedsImage s := .inr ⟨f, hs⟩
  refine ⟨fun n rest hp => ?_, fun act image rest hp hload hlength => ?_, fun k hp => ?_⟩
  · have hstep : step s = .refused .runNotIdle := step_needsImage_cons hneeds hp
    rw [proceed_of_refused hstep, hp]
    exact ⟨hstep, rfl⟩
  · refine ⟨_, ?_, loadImage_status image { s with pending := rest }⟩
    rw [step_needsImage_cons hneeds hp, hostActionUnloaded_load hload, hostLoad_of_length hlength]
  · rw [proceedN_needsImage k hneeds fun act ha => loadsNoImage_of_loadedImage_none (hp act ha)]
    exact hs

/-- Settles O60: a core before any image is one that needs an image. -/
theorem nothingRunsBeforeAnImageIsLoaded : Obligations.NothingRunsBeforeAnImageIsLoaded := by
  refine ⟨rfl, fun s hs => ?_⟩
  have hneeds : NeedsImage s := .inl hs
  refine ⟨fun n rest hp => step_needsImage_cons hneeds hp, fun n => ?_, fun act image rest hp hload => ⟨?_, ?_⟩,
    fun act rest hp hload => ?_, fun k hp => proceedN_needsImage k hneeds hp⟩
  · rw [runBatch, hs]
  · intro hlength
    rw [step_needsImage_cons hneeds hp, hostActionUnloaded_load hload, hostLoad_of_wrong_length hlength]
  · intro hlength
    rw [step_needsImage_cons hneeds hp, hostActionUnloaded_load hload, hostLoad_of_length hlength]
    rfl
  · obtain ⟨r, hr⟩ := hostActionUnloaded_refused hload { s with pending := rest }
    have hstep := (step_needsImage_cons hneeds hp).trans hr
    refine ⟨⟨r, hstep⟩, ?_⟩
    rw [proceed_of_refused hstep, hp]
    rfl

end Sys2Proof.Machine
end

section
/-! SUPPORT. What a step of the machine can do, by the status: an instruction, the write-back or a due load while Running, the
host's next action otherwise (spec 40_run_and_step.md R100, 60_exceptions.md R203, 70_reset_and_hazards.md R230). With it the
obligations on the invariant, on the status, on faults and on the waiting host. -/

namespace Sys2Proof.Machine

/-! ### What a step can do -/

theorem hostStep_ne_fault {action : HostAction → State → Host.Outcome State Fault Refusal} {f : Fault}
    (h : ∀ act s, action act s ≠ .fault f) (s : State) : hostStep action s ≠ .fault f := by
  rw [hostStep]
  split
  · simp
  · exact h _ _

theorem hostActionUnloaded_ne_fault (f : Fault) (act : HostAction) (s : State) : hostActionUnloaded act s ≠ .fault f := by
  cases act with
  | loadImage image => exact hostLoad_ne_fault image s f
  | loadImageDuring left image => exact hostLoad_ne_fault image s f
  | run | frameTick | write => simp [hostActionUnloaded]

theorem hostActionIdle_ne_fault (f : Fault) (act : HostAction) (s : State) : hostActionIdle act s ≠ .fault f := by
  cases act with
  | loadImage image => exact hostLoad_ne_fault image s f
  | loadImageDuring left image => exact hostLoad_ne_fault image s f
  | run | frameTick | write => simp [hostActionIdle]

/-- A step faults only in an instruction. -/
theorem ready_of_step_fault {s : State} {f : Fault} (h : step s = .fault f) : Ready s := by
  cases hs : s.status with
  | running =>
    rcases running_cases hs with hready | ⟨hbudget, hdue⟩ | ⟨image, rest, hdue⟩
    · exact hready
    · cases (step_of_batchDone hs hbudget hdue).symm.trans h
    · exact absurd ((step_of_dueLoad hs hdue).symm.trans h) (hostLoad_ne_fault _ _ _)
  | idle => exact absurd ((step_of_idle hs).symm.trans h) (hostStep_ne_fault (hostActionIdle_ne_fault f) s)
  | unloaded =>
    exact absurd ((step_needsImage (.inl hs)).symm.trans h) (hostStep_ne_fault (hostActionUnloaded_ne_fault f) s)
  | faulted g =>
    exact absurd ((step_needsImage (.inr ⟨g, hs⟩)).symm.trans h) (hostStep_ne_fault (hostActionUnloaded_ne_fault f) s)

/-- All a step of a Running core can do: an instruction, the write-back, or the load that is due (R103, R106, R230). -/
theorem running_next_cases {s t : State} (hs : s.status = .running) (h : step s = .next t) :
    (0 < s.budget ∧ t.status = .running ∧ (s.mem.wf = true → t.mem.wf = true)) ∨
    (s.budget = 0 ∧ t = writeBack s) ∨
    ∃ image rest, s.pending = .loadImageDuring s.budget image :: rest ∧ image.length = 65536 ∧
      t = loadImage image { s with pending := rest } := by
  rcases running_cases hs with hready | ⟨hbudget, hdue⟩ | ⟨image, rest, hdue⟩
  · obtain ⟨hstatus, _, _, hwf, _⟩ := instrStep_next ((step_of_ready hready).symm.trans h)
    obtain ⟨_, hbudget, _⟩ := hready
    exact .inl ⟨hbudget, hstatus.trans hs, hwf⟩
  · cases (step_of_batchDone hs hbudget hdue).symm.trans h
    exact .inr (.inl ⟨hbudget, rfl⟩)
  · obtain ⟨hlength, ht⟩ := hostLoad_next ((step_of_dueLoad hs hdue).symm.trans h)
    exact .inr (.inr ⟨image, rest, dueLoad_eq_some.mp hdue, hlength, ht⟩)

/-- All a step of an Idle core can do: start a batch, or stay Idle with a canonical memory and no step left (R100). -/
theorem idle_next_cases {s t : State} (hs : s.status = .idle) (h : step s = .next t) :
    (∃ n rest, s.pending = .run n :: rest ∧ t = startBatch n { s with pending := rest }) ∨
    (t.status = .idle ∧ (s.budget = 0 → t.budget = 0) ∧ (s.mem.wf = true → t.mem.wf = true)) := by
  cases hp : s.pending with
  | nil =>
    rw [step_of_idle hs, hostStep, hp] at h
    cases h
    exact .inr ⟨hs, id, id⟩
  | cons act rest =>
    rw [step_idle_cons hs hp] at h
    cases act with
    | run n =>
      cases h
      exact .inl ⟨n, rest, rfl, rfl⟩
    | frameTick =>
      cases h
      exact .inr ⟨hs, id, fun hwf => tickFrame_wf (s := { s with pending := rest }) hwf⟩
    | write address value =>
      cases h
      exact .inr ⟨hs, id, fun hwf => writeByte_wf hwf address value⟩
    | loadImage image =>
      obtain ⟨hlength, rfl⟩ := hostLoad_next h
      exact .inr ⟨rfl, fun _ => rfl, fun _ => loadImage_wf hlength _⟩
    | loadImageDuring left image =>
      obtain ⟨hlength, rfl⟩ := hostLoad_next h
      exact .inr ⟨rfl, fun _ => rfl, fun _ => loadImage_wf hlength _⟩

/-- All a step of a core that needs an image can do: stay, or load one (R204, R214). -/
theorem needsImage_next_cases {s t : State} (hs : NeedsImage s) (h : step s = .next t) :
    (s.pending = [] ∧ t = s) ∨ ∃ act image rest, s.pending = act :: rest ∧ loadedImage act = some image ∧
      image.length = 65536 ∧ t = { loadImage image s with pending := rest } := by
  obtain hs | ⟨f, hs⟩ := hs
  · exact unloaded_next_cases hs h
  · exact faulted_next_cases hs h

/-! ### The invariant, the status and faults -/

/-- A loaded image meets the invariant (R230). -/
theorem loadImage_inv {image : List Byte} (h : image.length = 65536) (s : State) : (loadImage image s).Inv :=
  ⟨loadImage_wf h s, .inr rfl⟩

/-- Every next state keeps the invariant. -/
theorem step_next_inv {s t : State} (hinv : s.Inv) (h : step s = .next t) : t.Inv := by
  have hneeds : NeedsImage s → t.Inv := fun hn => by
    obtain ⟨_, rfl⟩ | ⟨_, image, _, _, _, hlength, rfl⟩ := needsImage_next_cases hn h
    · exact hinv
    · exact loadImage_inv hlength s
  obtain ⟨hwf, hbudget⟩ := hinv
  cases hs : s.status with
  | unloaded => exact hneeds (.inl hs)
  | faulted f => exact hneeds (.inr ⟨f, hs⟩)
  | idle =>
    have hzero : s.budget = 0 := hbudget.resolve_left fun hr => by cases hs.symm.trans hr
    obtain ⟨n, rest, _, rfl⟩ | ⟨_, hbudget', hwf'⟩ := idle_next_cases hs h
    · exact ⟨hwf, .inl rfl⟩
    · exact ⟨hwf' hwf, .inr (hbudget' hzero)⟩
  | running =>
    obtain ⟨_, hstatus, hwf'⟩ | ⟨hzero, rfl⟩ | ⟨image, rest, _, hlength, rfl⟩ := running_next_cases hs h
    · exact ⟨hwf' hwf, .inl hstatus⟩
    · exact ⟨writeBack_wf hwf, .inr hzero⟩
    · exact loadImage_inv hlength _

/-- Settles O59: the next states, the free but canonical memory after a fault, and a refused request dropped. -/
theorem everyStepKeepsTheInvariant : Obligations.EveryStepKeepsTheInvariant := by
  refine fun s hinv => ⟨fun t => step_next_inv hinv, ?_⟩
  cases h : step s with
  | next t =>
    rw [proceed_of_next h]
    exact step_next_inv hinv h
  | fault f =>
    rw [proceed_of_fault h]
    exact ⟨memoryAfterFault_wf s, .inr rfl⟩
  | refused r =>
    rw [proceed_of_refused h]
    exact hinv

/-- Settles O58: the memory of reset lists no cell, and no batch has begun. -/
theorem invariantHoldsAtReset : Obligations.InvariantHoldsAtReset := ⟨rfl, .inr rfl⟩

/-- Settles O50: all a step can do, by the status before it. -/
theorem statusChangesOnlyAtBatchBoundaries : Obligations.StatusChangesOnlyAtBatchBoundaries := by
  intro s t h
  have hneeds : NeedsImage s → t.status = s.status ∨ (t.status = .idle ∧ ∃ act image rest, s.pending = act :: rest ∧
      loadedImage act = some image ∧ image.length = 65536) := fun hn => by
    obtain ⟨_, rfl⟩ | ⟨act, image, rest, hp, hload, hlength, rfl⟩ := needsImage_next_cases hn h
    · exact .inl rfl
    · exact .inr ⟨rfl, act, image, rest, hp, hload, hlength⟩
  refine ⟨fun hs => ?_, fun hs => ?_, fun f hs => hs ▸ hneeds (.inr ⟨f, hs⟩), fun hs => hs ▸ hneeds (.inl hs)⟩
  · obtain ⟨n, rest, hp, rfl⟩ | ⟨hidle, _⟩ := idle_next_cases hs h
    · exact .inr ⟨rfl, n, rest, hp, rfl⟩
    · exact .inl hidle
  · obtain ⟨hbudget, hrunning, _⟩ | ⟨hzero, rfl⟩ | ⟨image, rest, hp, hlength, rfl⟩ := running_next_cases hs h
    · exact .inl ⟨hrunning, hbudget⟩
    · exact .inr (.inl ⟨rfl, hzero⟩)
    · exact .inr (.inr ⟨rfl, image, rest, hp, hlength⟩)

/-- Settles O51: the fault of an instruction, and the state after it. -/
theorem faultLeavesTheCoreFaulted : Obligations.FaultLeavesTheCoreFaulted := by
  intro s f h
  obtain ⟨hs, hbudget, _⟩ := ready_of_step_fault h
  rw [proceed_of_fault h]
  exact ⟨hs, hbudget, rfl, by cases f; rfl, rfl, rfl⟩

/-- Settles O49: an instruction does not see the queue, nor does the write-back. -/
theorem hostCannotActDuringABatch : Obligations.HostCannotActDuringABatch := by
  intro s waiting hs hdue hdue'
  by_cases hbudget : 0 < s.budget
  · have hstep := step_of_ready ⟨hs, hbudget, hdue⟩
    have hstep' : step { s with pending := waiting } = mapNext (withContext s.status (s.budget - 1) waiting) (step s) := by
      rw [hstep, step_of_ready (s := { s with pending := waiting }) ⟨hs, hbudget, hdue'⟩]
      exact instrStep_withContext s.status (s.budget - 1) waiting { s with budget := s.budget - 1 }
    rcases exec_fault_or_next (fetchInstr { s with budget := s.budget - 1 }).1
        (fetchInstr { s with budget := s.budget - 1 }).2 with hfault | ⟨t, hnext⟩
    · refine .inr ⟨_, hstep.trans hfault, ?_⟩
      rw [hstep', hstep.trans hfault, mapNext]
    · obtain ⟨hstatus, hbudget', hpending, _⟩ := instrStep_next hnext
      refine .inl ⟨t, hstep.trans hnext, ?_, hpending⟩
      rw [hstep', hstep.trans hnext, mapNext, withContext, ← hstatus,
        show s.budget - 1 = t.budget from hbudget'.symm]
  · have hzero : s.budget = 0 := Nat.eq_zero_of_not_pos hbudget
    exact .inl ⟨_, step_of_batchDone hs hzero hdue, step_of_batchDone (s := { s with pending := waiting }) hs hzero hdue',
      rfl⟩

end Sys2Proof.Machine
end

section
/-! SUPPORT. Images, the frame tick and what the renderer reads (spec 70_reset_and_hazards.md R230, 60_exceptions.md R209, R210,
20_memory.md R62), and with them the obligations on the image load, on a frame and on pixels. -/

namespace Sys2Proof.Machine

/-! ### Images -/

/-- A load takes a step in every status, while Running at the point that it names (R230). -/
theorem step_of_load {s : State} {act : HostAction} {rest : List HostAction} {image : List Byte} (hp : s.pending = act :: rest)
    (h : (s.status ≠ .running ∧ loadedImage act = some image) ∨
      (s.status = .running ∧ act = .loadImageDuring s.budget image)) :
    step s = hostLoad image { s with pending := rest } := by
  rcases h with ⟨hs, hload⟩ | ⟨hs, rfl⟩
  · rcases idle_or_needsImage hs with hidle | hneeds
    · rw [step_idle_cons hidle hp, hostActionIdle_load hload]
    · rw [step_needsImage_cons hneeds hp, hostActionUnloaded_load hload]
  · exact step_of_dueLoad hs (dueLoad_eq_some.mpr hp)

/-- Byte `x` of an image is at address `x` (R230). -/
theorem readByte_memoryOfBytes {image : List Byte} (h : image.length = 65536) (x : Word) :
    image[x.toNat]? = some (readByte (memoryOfBytes 0 image) x) := by
  have hx : x.toNat < image.length := by omega
  have hcell := readCell_memoryOfBytes image 0 x.toNat (by omega)
  rw [Nat.zero_add, List.getD_eq_getElem _ _ hx] at hcell
  rw [readByte, hcell, List.getElem?_eq_getElem hx]

/-- Settles O53: the memory of the image, and the host's load in each status. -/
theorem imageLoadSetsEveryCell : Obligations.ImageLoadSetsEveryCell := by
  refine fun s image => ⟨fun hlength => ⟨rfl, readByte_memoryOfBytes hlength⟩, fun act rest hp hload => ?_⟩
  have hstep := step_of_load hp hload
  refine ⟨fun hlength => hstep.trans (hostLoad_of_length hlength _), fun hlength => ?_⟩
  have hrefused := hstep.trans (hostLoad_of_wrong_length hlength _)
  rw [proceed_of_refused hrefused, hp]
  exact ⟨hrefused, rfl⟩

/-- An image of zeros lists no cell (log entry 1). -/
theorem memoryOfBytes_replicate_zero (n a : Nat) : memoryOfBytes a (List.replicate n 0x00) = [] := by
  induction n generalizing a with
  | zero => rfl
  | succ n ih => exact ih (a + 1)

/-- Settles O57: the fields of reset, and the memory of the image of zeros. -/
theorem resetIsTheLoadOfTheZeroImage : Obligations.ResetIsTheLoadOfTheZeroImage := by
  refine ⟨rfl, rfl, rfl, fun _ => rfl, fun s hp => ?_⟩
  rw [loadImage, memoryOfBytes_replicate_zero, hp]
  rfl

/-! ### The frame counter -/

/-- A tick adds 1 to the counter, modulo 65536 (R209). -/
theorem tickFrame_counter {s : State} (hs : s.mem.wf = true) :
    (readWord (tickFrame s).mem 0x0006).toNat = ((readWord s.mem 0x0006).toNat + 1) % 65536 := by
  have hread : readWord (tickFrame s).mem 0x0006 = readWord s.mem 0x0006 + 1 := readWord_writeWord hs 0x0006 _
  rw [hread, BitVec.toNat_add]
  rfl

/-- A tick changes the counter's two cells only. -/
theorem tickFrame_readByte {s : State} (hs : s.mem.wf = true) {a : Word} (h6 : a ≠ 0x0006) (h7 : a ≠ 0x0007) :
    readByte (tickFrame s).mem a = readByte s.mem a := by
  have hwrite := readByte_writeWord hs Config.frameCounter a (readWord s.mem Config.frameCounter + 1)
  exact hwrite.trans ((if_neg h6).trans (if_neg h7))

/-- Settles O54: the tick as a step of an Idle core, and its refusal by a Faulted one. -/
theorem frameTickIncrementsTheCounter : Obligations.FrameTickIncrementsTheCounter := by
  refine fun s rest hs hp => ⟨fun hidle => ?_, fun f hf => step_needsImage_cons (.inr ⟨f, hf⟩) hp⟩
  exact ⟨_, step_idle_cons hidle hp, rfl, tickFrame_counter (s := { s with pending := rest }) hs,
    fun a => tickFrame_readByte (s := { s with pending := rest }) hs⟩

/-- A batch that does not store to the counter leaves it as it was, the write-back included (R27, R106). -/
theorem runBatch_counter {n : Nat} {s t : State} (hs : s.mem.wf = true) (hidle : s.status = .idle)
    (h : runBatch n s = .next t)
    (hstored : ∀ k u, k < n → repeatStep k { loadRegisters s with status := .running } = .next u →
      ∀ a ∈ storedCells (fetchInstr u).1 (fetchInstr u).2, a ≠ 0x0006 ∧ a ≠ 0x0007) :
    t.status = .idle ∧ t.mem.wf = true ∧ readWord t.mem 0x0006 = readWord s.mem 0x0006 := by
  obtain ⟨u, hu, rfl⟩ := runBatch_next hidle h
  obtain ⟨_, hwf⟩ := repeatStep_next hu
  obtain ⟨_, _, _, hcells⟩ := writeBack_reads (hwf hs)
  have hkept := frameCounterConstantWithinABatch n { loadRegisters s with status := .running } u hs hu hstored
  refine ⟨rfl, writeBack_wf (hwf hs), ?_⟩
  calc readWord (writeBack u).mem 0x0006
    _ = readWord u.mem 0x0006 := by rw [readWord, readWord, hcells 0x0006 (by decide), hcells (0x0006 + 1) (by decide)]
    _ = readWord s.mem 0x0006 := hkept

/-- Settles O55: one tick, and a batch that keeps the counter, in either order. -/
theorem frameOfEitherOrderCountsOne : Obligations.FrameOfEitherOrderCountsOne := by
  intro order n s t hs hidle h hstored
  cases order with
  | beforeRun =>
    obtain ⟨hstatus, _, hcounter⟩ := runBatch_counter (tickFrame_wf hs) hidle h hstored
    rw [hcounter, tickFrame_counter hs]
    exact ⟨hstatus, rfl⟩
  | afterRun =>
    rw [runFrame] at h
    split at h
    · next u hu =>
      cases h
      obtain ⟨hstatus, hwf, hcounter⟩ := runBatch_counter hs hidle hu hstored
      rw [tickFrame_counter hwf, hcounter]
      exact ⟨hstatus, rfl⟩
    · cases h
    · cases h

/-! ### Pixels -/

/-- The address of a pixel inside the frame buffer (R62). -/
theorem pixelAddress_toNat {x y : Nat} (hx : x < 128) (hy : y < 128) :
    (pixelAddress x y).toNat = 0x0400 + 128 * y + x := by
  have hbase : Config.frameBufferBase.toNat = 0x0400 := rfl
  rw [pixelAddress, u16, BitVec.toNat_add, BitVec.toNat_ofNat, hbase]
  omega

/-- Different pixels are different cells. -/
theorem pixelAddress_ne {x y x' y' : Nat} (hx : x < 128) (hy : y < 128) (hx' : x' < 128) (hy' : y' < 128)
    (h : (x', y') ≠ (x, y)) : pixelAddress x' y' ≠ pixelAddress x y := by
  intro heq
  have hnat := congrArg BitVec.toNat heq
  rw [pixelAddress_toNat hx' hy', pixelAddress_toNat hx hy] at hnat
  exact h (Prod.ext (by omega) (by omega))

/-- The cells of the palette lie below the frame buffer (R62). -/
theorem paletteAddress_toNat_lt (i : Byte) {k : Nat} (hk : k < 3) :
    (Config.paletteBase + u16 (3 * i.toNat) + BitVec.ofNat 16 k).toNat < 0x0400 := by
  have hi := i.isLt
  have hsum : Config.paletteBase + u16 (3 * i.toNat) + BitVec.ofNat 16 k = u16 (0x0100 + 3 * i.toNat + k) := by
    rw [u16_add, u16_add]
    rfl
  rw [hsum, u16, BitVec.toNat_ofNat, Nat.mod_eq_of_lt (by omega)]
  omega

/-- A write to a pixel changes no palette entry. -/
theorem paletteEntry_writeByte {m : Memory} (hm : m.wf = true) {a : Word} (ha : 0x0400 ≤ a.toNat) (b i : Byte) :
    paletteEntry (writeByte m a b) i = paletteEntry m i := by
  have hne : ∀ k < 3, Config.paletteBase + u16 (3 * i.toNat) + BitVec.ofNat 16 k ≠ a := fun k hk heq => by
    have hlt := paletteAddress_toNat_lt i hk
    rw [heq] at hlt
    omega
  have h0 : Config.paletteBase + u16 (3 * i.toNat) ≠ a := by simpa using hne 0 (by omega)
  have h1 : Config.paletteBase + u16 (3 * i.toNat) + 1 ≠ a := hne 1 (by omega)
  have h2 : Config.paletteBase + u16 (3 * i.toNat) + 2 ≠ a := hne 2 (by omega)
  simp only [paletteEntry, readByte_writeByte hm, if_neg h0, if_neg h1, if_neg h2]

/-- Settles O56: a store-byte is one byte write, and pixels and palette are different cells. -/
theorem storeByteDrawsOnePixel : Obligations.StoreByteDrawsOnePixel := by
  intro s t x y hs hx hy
  have haddress := pixelAddress_toNat hx hy
  refine ⟨haddress, by omega, fun hpixel hexec => ?_, fun hzeros hred hgreen hblue => ?_⟩
  · have hstore := exec_storeByte s
    rw [hpixel] at hstore
    cases hstore.symm.trans hexec
    refine ⟨?_, fun x' y' hx' hy' hne => ?_, fun i => paletteEntry_writeByte hs (by omega) _ i⟩
    · rw [pixel, readByte_writeByte hs, if_pos rfl]
    · rw [pixel, readByte_writeByte hs, if_neg (pixelAddress_ne hx hy hx' hy' hne), pixel]
  · have hindex : pixel s.mem x y = 0x00 := hzeros _ (by omega) (by omega)
    rw [pixelColour, hindex]
    exact Prod.ext hred (Prod.ext hgreen hblue)

end Sys2Proof.Machine
end
